-- ==== Sys2Proof/Config.lean ====
section
/-! DEFINITION. What this implementation fixes (the two open width parameters) and the values the
spec leaves open. An open value is a constant WITHOUT A BODY: nothing can be proved of it, so a
statement about it holds whatever it is. -/

namespace Sys2Proof.Config

/-- SEED_W, the width of SEED and SAVED (R8, open parameter of D2, default 64).
DESIGN CHOICE, log entry 7. -/
abbrev seedW : Nat := 64

/-- CTR_W, the width of COUNTER (R9, open parameter of D3, default 64).
DESIGN CHOICE, log entry 7. -/
abbrev ctrW : Nat := 64

/-- The k-th value SEED may hold while the spec gives it none, after a reset (R35, R156, U8: "must
not substitute zero"). DESIGN CHOICE, log entry 1. -/
opaque freeSeed : Nat → BitVec seedW

/-- The k-th value COUNTER may hold after a reset (R35, R156, U8). DESIGN CHOICE, log entry 1. -/
opaque freeCounter : Nat → BitVec ctrW

/-- The k-th value SAVED may hold after a reset (R35, R156) or once a SEED command has cleared the
snapshot (R23, R90, U3). DESIGN CHOICE, log entries 1 and 2. -/
opaque freeSaved : Nat → BitVec seedW

/-- The k-th value INCR may hold after a reset (R35, R156) or after a SEED command (R24, R90, U9).
DESIGN CHOICE, log entries 1 and 2. -/
opaque freeIncr : Nat → BitVec 32

/-- The k-th value TIME may show where no platform script gives it (R33, U5: a free input under
no law). DESIGN CHOICE, log entry 3. -/
opaque freeTime : Nat → BitVec 64

end Sys2Proof.Config
end

