-- ==== Sys2Proof/Word.lean ====
section
/-! DEFINITION. The bit-vector types of the registers and of the port records. -/

namespace Sys2Proof

/-- One byte: a MSG record, one character of a draw's message, the DATA of an OUT record (R31). -/
abbrev Byte := BitVec 8

/-- A 32-bit word: INCR, the CRC register, the VALUE of a response (R24, R70, R81). -/
abbrev Word := BitVec 32

/-- The contents of SEED or SAVED (R21, R23). -/
abbrev SeedWord := BitVec Config.seedW

/-- The contents of COUNTER (R22). -/
abbrev CtrWord := BitVec Config.ctrW

/-- One sample of the TIME input (R12, R33). -/
abbrev TimeWord := BitVec 64

/-- A CMD record, OPD[63:0] ++ CW[31:0] (R45, R55). -/
abbrev CmdRecord := BitVec 96

/-- An RSP record, VALUE[31:0] ++ CODE[3:0] (R45, R70). -/
abbrev RspRecord := BitVec 36

/-- An OUT record, FMT ++ DATA[7:0] (R45, R128). -/
abbrev OutRecord := BitVec 9

end Sys2Proof
end

