-- ==== Sys2Proof/Syntax.lean ====
section
/-! DEFINITION. The eight commands of the block, one constructor per row of the opcode table (R59).
Operands are the mathematical integers the rules use (R58); `Instr.wellFormed` gives their ranges. -/

namespace Sys2Proof

/-- The commands (R59). -/
inductive Instr where
  /-- SEED.T: seed from one sample of TIME (R91). -/
  | seedT
  /-- SEED.I v: seed from the signed integer `v` (R92). -/
  | seedI (v : Int)
  /-- SEED.S LEN: seed from the CRC of the next `len` bytes of MSG (R94). -/
  | seedS (len : Nat)
  /-- SEED.X: a seed input of any other kind; OPD is ignored (R96). -/
  | seedX
  /-- SAVE: copy SEED into SAVED (R100). -/
  | save
  /-- RESTORE: copy SAVED into SEED (R101). -/
  | restore
  /-- RANDINT min, max: one integer draw in an inclusive range (R106). -/
  | randInt (min max : Int)
  /-- RANDBYTES LENGTH, DEC, RDBL: `length` draws, one OUT record each (R126). -/
  | randBytes (length : Nat) (dec rdbl : Bool)
deriving DecidableEq, Repr

end Sys2Proof
end

