-- ==== Sys2Proof/WellFormed.lean ====
section
/-! DEFINITION. Which operand values the encoding admits (R10 to R12, R58, R75). A command whose
operand is outside its range is an assembler error, not a command (R75): no record decodes to it. -/

namespace Sys2Proof

/-- `v` is the value of an `n`-bit two's-complement field (R16). -/
def fitsSigned (n : Nat) (v : Int) : Bool := decide (-(2 : Int) ^ (n - 1) ≤ v ∧ v < 2 ^ (n - 1))

/-- `v` is the value of an `n`-bit unsigned field (R16). -/
def fitsUnsigned (n : Nat) (v : Nat) : Bool := decide (v < 2 ^ n)

/-- Every operand is in the range its field can carry: SEEDIN_W = 64 (R12), RANGE_W = 32 (R10),
LEN_W = 32 (R11). -/
def Instr.wellFormed : Instr → Bool
  | .seedT => true
  | .seedI v => fitsSigned 64 v
  | .seedS len => fitsUnsigned 32 len
  | .seedX => true
  | .save => true
  | .restore => true
  | .randInt min max => fitsSigned 32 min && fitsSigned 32 max
  | .randBytes length _ _ => fitsUnsigned 32 length

end Sys2Proof
end

