-- ==== Sys2Proof/Decode.lean ====
section
/-! DEFINITION. The command decoder of R60, total on all 96-bit records and rejecting by name, the
encoder of the same tables (R56, R57, R59), and the opcode table itself as mask and match. -/

namespace Sys2Proof

/-- Why a record is ILLEGAL: the causes R61 lists. The block reports all of them alike
(IllegalCommand, CODE 4); the name is the model's (log entry 14). -/
inductive Reject where
  /-- A bit of RSV, CW[31:8], is set. -/
  | reservedBits
  /-- OP is 0 or 6 to 15. -/
  | reservedOp
  /-- KIND is not 0 outside SEED. -/
  | kindField
  /-- DEC or RDBL is set outside RANDBYTES. -/
  | optionField
  /-- A bit of OPD that must be 0 is set. -/
  | operandField
deriving DecidableEq, Repr

/-! ### Fields of a record (R45, R55 to R57) -/

/-- CW, the control word: record[31:0]. -/
def cwOf (r : CmdRecord) : BitVec 32 := r.extractLsb' 0 32
/-- OPD, the operand field: record[95:32]. -/
def opdOf (r : CmdRecord) : BitVec 64 := r.extractLsb' 32 64
/-- OP: CW[3:0]. -/
def opOf (r : CmdRecord) : BitVec 4 := r.extractLsb' 0 4
/-- KIND: CW[5:4]. -/
def kindOf (r : CmdRecord) : BitVec 2 := r.extractLsb' 4 2
/-- DEC: CW[6]. -/
def decOf (r : CmdRecord) : Bool := r.getLsbD 6
/-- RDBL: CW[7]. -/
def rdblOf (r : CmdRecord) : Bool := r.getLsbD 7
/-- RSV: CW[31:8]. -/
def rsvOf (r : CmdRecord) : BitVec 24 := r.extractLsb' 8 24
/-- OPD[31:0]. -/
def opdLoOf (r : CmdRecord) : BitVec 32 := r.extractLsb' 32 32
/-- OPD[63:32]. -/
def opdHiOf (r : CmdRecord) : BitVec 32 := r.extractLsb' 64 32

/-- The record is rejected if KIND, DEC or RDBL is set: the `CW[7:4] != 0` of R60. -/
def plainControl (r : CmdRecord) (i : Except Reject Instr) : Except Reject Instr :=
  if kindOf r ≠ 0 then .error .kindField
  else if decOf r || rdblOf r then .error .optionField
  else i

/-- The record is rejected unless the bits of OPD in `field` are all 0 (R57). -/
def operandZero {n : Nat} (field : BitVec n) (i : Instr) : Except Reject Instr :=
  if field ≠ 0 then .error .operandField else .ok i

/-- OP = 1: the four kinds of seed input (R56, R60). -/
def decodeSeed (r : CmdRecord) : Except Reject Instr :=
  if decOf r || rdblOf r then .error .optionField
  else if kindOf r = 0 then operandZero (opdOf r) .seedT
  else if kindOf r = 1 then .ok (.seedI (opdOf r).toInt)
  else if kindOf r = 2 then operandZero (opdHiOf r) (.seedS (opdLoOf r).toNat)
  else .ok .seedX

/-- OP = 5: the byte draw (R56, R60). -/
def decodeRandBytes (r : CmdRecord) : Except Reject Instr :=
  if kindOf r ≠ 0 then .error .kindField
  else operandZero (opdHiOf r) (.randBytes (opdLoOf r).toNat (decOf r) (rdblOf r))

/-- Decoding (R60). It reads no state. -/
def decode (r : CmdRecord) : Except Reject Instr :=
  if rsvOf r ≠ 0 then .error .reservedBits
  else if opOf r = 1 then decodeSeed r
  else if opOf r = 2 then plainControl r (operandZero (opdOf r) .save)
  else if opOf r = 3 then plainControl r (operandZero (opdOf r) .restore)
  else if opOf r = 4 then
    plainControl r (.ok (.randInt (opdLoOf r).toInt (opdHiOf r).toInt))
  else if opOf r = 5 then decodeRandBytes r
  else .error .reservedOp

/-- The host's entry: the command read from the 96 bits `w` of one record. A CMD record is
transferred whole (R31, R55), so the record is the number itself. -/
def decodeTableWord (nbits w : Nat) : Option Instr :=
  match decode (BitVec.ofNat 96 (w % 2 ^ nbits)) with
  | .ok i => some i
  | .error _ => none

/-! ### The encoder (R56, R57, R59) -/

/-- CW from its fields; RSV is 0 (R56). -/
def controlWord (op : BitVec 4) (kind : BitVec 2) (dec rdbl : Bool) : BitVec 32 :=
  (0 : BitVec 24) ++ (BitVec.ofBool rdbl ++ (BitVec.ofBool dec ++ (kind ++ op)))

/-- A record from its two words (R45, R55). -/
def record (opd : BitVec 64) (cw : BitVec 32) : CmdRecord := opd ++ cw

/-- The record of a well-formed command (R57, R59). SEED.X is assembled with OPD = 0 (R75). -/
def encode : Instr → CmdRecord
  | .seedT => record 0 (controlWord 1 0 false false)
  | .seedI v => record (BitVec.ofInt 64 v) (controlWord 1 1 false false)
  | .seedS len => record ((0 : BitVec 32) ++ BitVec.ofNat 32 len) (controlWord 1 2 false false)
  | .seedX => record 0 (controlWord 1 3 false false)
  | .save => record 0 (controlWord 2 0 false false)
  | .restore => record 0 (controlWord 3 0 false false)
  | .randInt min max =>
    record (BitVec.ofInt 32 max ++ BitVec.ofInt 32 min) (controlWord 4 0 false false)
  | .randBytes length dec rdbl =>
    record ((0 : BitVec 32) ++ BitVec.ofNat 32 length) (controlWord 5 0 dec rdbl)

/-! ### The opcode table (R59) -/

/-- One row of the table: a record `r` selects it when `r AND mask = pattern` (R59). -/
structure Row where
  mask : CmdRecord
  pattern : CmdRecord
deriving DecidableEq, Repr

/-- The row of R59 a command belongs to. -/
def rowOf : Instr → Row
  | .seedT => ⟨0xFFFFFFFFFFFFFFFFFFFFFFFF#96, 0x000000000000000000000001#96⟩
  | .seedI _ => ⟨0x0000000000000000FFFFFFFF#96, 0x000000000000000000000011#96⟩
  | .seedS _ => ⟨0xFFFFFFFF00000000FFFFFFFF#96, 0x000000000000000000000021#96⟩
  | .seedX => ⟨0x0000000000000000FFFFFFFF#96, 0x000000000000000000000031#96⟩
  | .save => ⟨0xFFFFFFFFFFFFFFFFFFFFFFFF#96, 0x000000000000000000000002#96⟩
  | .restore => ⟨0xFFFFFFFFFFFFFFFFFFFFFFFF#96, 0x000000000000000000000003#96⟩
  | .randInt _ _ => ⟨0x0000000000000000FFFFFFFF#96, 0x000000000000000000000004#96⟩
  | .randBytes _ _ _ => ⟨0xFFFFFFFF00000000FFFFFF3F#96, 0x000000000000000000000005#96⟩

/-- The record selects the row (R59). -/
def Row.selectedBy (w : Row) (r : CmdRecord) : Bool := r &&& w.mask == w.pattern

/-- The eight rows of R59, in its order. -/
def opcodeTable : List Row :=
  [rowOf .seedT, rowOf (.seedI 0), rowOf (.seedS 0), rowOf .seedX, rowOf .save, rowOf .restore,
    rowOf (.randInt 0 0), rowOf (.randBytes 0 false false)]

end Sys2Proof
end

