-- ==== Sys2Proof/Machine/State.lean ====
section
/-! DEFINITION. The state of the block and of its ports (R20 to R26, R31), the reasons a step could
stop, and the state after reset (R35, R156). -/

namespace Sys2Proof.Machine

/-- Why a step would stop the machine: there is no such reason, so the type has no constructor.
Every fault of R134 is a defined outcome, a response record after which the block takes the next
command (R142, R143, R149), and "No command can stop the block for good" (R144). Nothing raises
it; that it is empty is safe (log entry 17). -/
inductive Fault where
deriving DecidableEq, Repr

/-- Why a step is refused. -/
inductive Refusal where
  /-- A command without a meaning in `exec`. No arm raises it: all eight commands are modelled
  (safe: it would only stop the machine; log entry 17). -/
  | notModelled (mnemonic : String)
deriving DecidableEq, Repr

/-- The block (R20) and its ports (R31). -/
structure State where
  /-- SEEDED: a SEED command has completed since reset (R26). -/
  seeded : Bool
  /-- SAVED_VALID: a snapshot exists (R25). -/
  savedValid : Bool
  /-- SEED, the generator state (R21). -/
  seed : SeedWord
  /-- COUNTER, the draws since the last seeding (R22). -/
  counter : CtrWord
  /-- SAVED, the snapshot of SEED; it means something only while SAVED_VALID = 1 (R23). -/
  saved : SeedWord
  /-- INCR, the additive term of the last draw (R24). -/
  incr : Word
  /-- CMD: the records the host has sent and the block has not finished, oldest first; the head is
  the command in progress (R31, R50; log entry 4). -/
  cmd : List CmdRecord
  /-- MSG: the bytes the host has sent and no SEED.S has popped, oldest first (R31, R48, R161). -/
  msg : List Byte
  /-- TIME: the values the platform will show at the coming samples; where the list has ended the
  sample is free (R33, R48; log entry 3). -/
  time : List TimeWord
  /-- RSP: every response emitted since reset, oldest first (R31, R143). -/
  rsp : List RspRecord
  /-- OUT: every item emitted since reset, oldest first (R31, R128). -/
  out : List OutRecord
  /-- The MODEL's own field: how many free values have been taken (log entry 2). -/
  freeIndex : Nat
deriving DecidableEq, Repr

/-- The state after reset (R35, R156): the two flags clear, the streams empty, no command in
progress, and the four registers unspecified: each holds a free value, never a zero (log entry 1). -/
def State.reset : State where
  seeded := false
  savedValid := false
  seed := Config.freeSeed 0
  counter := Config.freeCounter 0
  saved := Config.freeSaved 0
  incr := Config.freeIncr 0
  cmd := []
  msg := []
  time := []
  rsp := []
  out := []
  freeIndex := 1

end Sys2Proof.Machine
end

