-- ==== Sys2Proof/Machine/Flags.lean ====
section
/-! DEFINITION. The two flags of the block, SEEDED and SAVED_VALID (R25, R26), in every way a
command writes them. There are no condition codes (R27). -/

namespace Sys2Proof.Machine

/-- A successful seeding sets SEEDED and clears SAVED_VALID (R25, R26, R90). -/
def flagsSeeded (s : State) : State := { s with seeded := true, savedValid := false }

/-- SAVE sets SAVED_VALID (R25, R100). -/
def flagsSaved (s : State) : State := { s with savedValid := true }

/-- COUNTER is at 2^CTR_W - 1, so no draw may start (R108). -/
def counterAtTop (s : State) : Bool := s.counter == BitVec.allOnes Config.ctrW

end Sys2Proof.Machine
end

