-- ==== Sys2Proof/Machine/Constants.lean ====
section
/-! DEFINITION. The wired constants of the block (R6, R7, R13, R28, R80) and the response codes
(R134). They stand here, each once, so that an audit of a literal changes one line (C7). -/

namespace Sys2Proof.Machine

/-- MULT, the LCG multiplier (R6, R28). -/
def mult : Word := 0x0019660D#32

/-- The bit-reversed CRC polynomial (R80, G1). -/
def crcPoly : Word := 0xEDB88320#32

/-- The initial value of the CRC register (R80, G1). -/
def crcInit : Word := 0xFFFFFFFF#32

/-- The final XOR of the CRC (R80, G1). -/
def crcXorOut : Word := 0xFFFFFFFF#32

/-- The character "0" (R84, G2). -/
def digitZero : Nat := 0x30

/-- The range of a byte draw without the readable option (R13). -/
def byteRange : Int × Int := (0, 255)

/-- The range of a byte draw with the readable option, printable ASCII (R13). -/
def readableRange : Int × Int := (32, 126)

/-- The binary64 significand, in bits (R114, G3). -/
def significandBits : Nat := 53

/-- The outcome of a command (R134). Codes 7 to 15 are never emitted (R70, U11). -/
inductive Code where
  /-- No fault. -/
  | ok
  /-- SEED.X (R135). -/
  | invalidSeed
  /-- RESTORE without a snapshot (R136). -/
  | invalidState
  /-- RANDINT with min > max (R137). -/
  | invalidRange
  /-- A record that is none of the eight encodings (R138). -/
  | illegalCommand
  /-- SAVE, RESTORE, RANDINT or RANDBYTES before the first seeding (R139). -/
  | notSeeded
  /-- A draw that would increment COUNTER = 2^CTR_W - 1 (R140). -/
  | counterOverflow
deriving DecidableEq, Repr

/-- The CODE field (R134). -/
def codeBits : Code → BitVec 4
  | .ok => 0
  | .invalidSeed => 1
  | .invalidState => 2
  | .invalidRange => 3
  | .illegalCommand => 4
  | .notSeeded => 5
  | .counterOverflow => 6

end Sys2Proof.Machine
end

