-- ==== Sys2Proof/Machine/Mapper.lean ====
section
/-! DEFINITION. The output mapper (R112 to R116): the binary64 formula of the source, computed on
integers. -/

namespace Sys2Proof.Machine

/-- The number of bits of a positive integer (R16). -/
def bitlen (a : Nat) : Nat := a.log2 + 1

/-- `p` rounded to 53 significant bits, ties to even (R114). -/
def rn53 (p : Nat) : Nat :=
  if p < 2 ^ significandBits then p
  else
    let e := bitlen p - significandBits
    let q := p >>> e
    let r := p % 2 ^ e
    let half := 2 ^ (e - 1)
    (if r > half ∨ (r = half ∧ q % 2 = 1) then q + 1 else q) <<< e

/-- The span of an inclusive range, an exact integer (R113). -/
def span (min max : Int) : Nat := (max - min + 1).toNat

/-- The output mapper (R113): `floor(rn53(s * n) / 2^32) + min`. -/
def outmap (s : Nat) (min max : Int) : Int := ((rn53 (s * span min max) >>> 32 : Nat) : Int) + min

end Sys2Proof.Machine
end

