-- ==== Sys2Proof/Machine/Crc.lean ====
section
/-! DEFINITION. The CRC-32/ISO-HDLC preprocessor and the decimal converter (40_crc_preprocessor.md):
two pure functions that read and write no state. -/

namespace Sys2Proof.Machine

/-- One turn of the inner loop of R81: shift right by one, and XOR the polynomial if a 1 fell out. -/
def crcBit (c : Word) : Word :=
  if c.getLsbD 0 then (c >>> 1) ^^^ crcPoly else c >>> 1

/-- The inner loop of R81 run `n` times. -/
def crcBits : Nat → Word → Word
  | 0, c => c
  | n + 1, c => crcBits n (crcBit c)

/-- One byte: it enters at bits 7:0, then eight turns (R81). -/
def crcByte (c : Word) (b : Byte) : Word := crcBits 8 (c ^^^ b.setWidth 32)

/-- The CRC register after the bytes of `bs`, byte 0 first (R81, R85). -/
def crcBytes (c : Word) (bs : List Byte) : Word := bs.foldl crcByte c

/-- The checksum (R81). Every call starts from the initial value (R85). -/
def crc32 (bs : List Byte) : Word := crcBytes crcInit bs ^^^ crcXorOut

/-- The digit character of `d` (R84). -/
def digit (d : Nat) : Byte := BitVec.ofNat 8 (digitZero + d)

/-- The loop of R84: prepend the last digit of `n` while `n > 0`. The first argument bounds the
number of turns. -/
def decLoop : Nat → Nat → List Byte → List Byte
  | 0, _, ds => ds
  | fuel + 1, n, ds => if n = 0 then ds else decLoop fuel (n / 10) (digit (n % 10) :: ds)

/-- The shortest decimal numeral of `n` in ASCII, most significant digit first (R84). `n` turns are
more than enough. -/
def dec (n : Nat) : List Byte := if n = 0 then [digit 0] else decLoop n n []

end Sys2Proof.Machine
end

