-- ==== Sys2Proof/Machine/Operands.lean ====
section
/-! DEFINITION. What a command reads besides its own fields: the magnitude of an integer seed, the
bytes of a string seed on MSG, a TIME sample, and the range a byte-draw option stands for. -/

namespace Sys2Proof.Machine

/-- The seed of an integer input: its absolute value, not reduced modulo 2^32 (R92). -/
def integerSeed (v : Int) : SeedWord := BitVec.ofNat Config.seedW v.natAbs

/-- The seed of a byte string: its CRC-32 (R94). -/
def stringSeed (bs : List Byte) : SeedWord := (crc32 bs).setWidth Config.seedW

/-- The seed of a time sample, not reduced (R91). -/
def timeSeed (t : TimeWord) : SeedWord := t.setWidth Config.seedW

/-- One `TIME.sample()` (R17, R33): the value the platform's script gives, or where it has ended a
free value. The block itself is untouched (R48). -/
def sampleTime (s : State) : TimeWord × State :=
  match s.time with
  | t :: later => (t, { s with time := later })
  | [] => (Config.freeTime s.freeIndex, { s with freeIndex := s.freeIndex + 1 })

/-- `len` pops of MSG (R17, R94), if the host has supplied that many bytes (R161). A popped byte is
never seen again (R48). -/
def popBytes (len : Nat) (s : State) : Option (List Byte × State) :=
  if len ≤ s.msg.length then some (s.msg.take len, { s with msg := s.msg.drop len }) else none

/-- The range of each draw of a RANDBYTES (R126, R127). -/
def itemRange (rdbl : Bool) : Int × Int := if rdbl then readableRange else byteRange

end Sys2Proof.Machine
end

