-- ==== Sys2Proof/Machine/Ops.lean ====
section
/-! DEFINITION. The operations the commands share: taking the next record, responding, raising a
fault, seeding, one draw, one OUT item. -/

namespace Sys2Proof.Machine

/-! ### Records in and out -/

/-- The record the block works on: the oldest on CMD (R29, R50). None while the host has sent
nothing (R157). -/
def fetch (s : State) : Option CmdRecord := s.cmd.head?

/-- An RSP record: VALUE ++ CODE (R45, R70). -/
def rspRecord (c : Code) (value : Word) : RspRecord := value ++ codeBits c

/-- An OUT record: FMT ++ DATA (R45, R128). -/
def outRecord (fmt : Bool) (data : Byte) : OutRecord := BitVec.ofBool fmt ++ data

/-- `respond(CODE, VALUE)` (R17): append one record to RSP and end the command, whose CMD record is
then done with (R50; log entry 4). -/
def respond (c : Code) (value : Word) (s : State) : State :=
  { s with rsp := s.rsp ++ [rspRecord c value], cmd := s.cmd.tail }

/-- Taking a fault, the one way for every command (R17, R142): the response carries its code, and
nothing else changes. There is no handler, nothing is saved, and there is nothing to return from:
the next command runs as if this one had not been sent (R143). -/
def raise (c : Code) (s : State) : State := respond c 0 s

/-- A record that decodes as ILLEGAL (R61, R138). -/
def illegalCommand (s : State) : State := raise .illegalCommand s

/-- The block while it waits, for a record (R157) or inside a SEED.S for a byte of MSG (R161): it
emits nothing and keeps the state it had (log entry 4). -/
def wait (s : State) : State := s

/-- `OUT.push` of one item (R17, R128). -/
def pushOut (fmt : Bool) (data : Byte) (s : State) : State :=
  { s with out := s.out ++ [outRecord fmt data] }

/-! ### Seeding -/

/-- A SEED command leaves the bits of SAVED and INCR unspecified (R23, R24, R90): each takes a free
value (log entry 2). -/
def forgetSavedIncr (s : State) : State :=
  { s with
    saved := Config.freeSaved s.freeIndex
    incr := Config.freeIncr s.freeIndex
    freeIndex := s.freeIndex + 1 }

/-- `Seed(s)`, the common effect of every successful seeding, with its response (R90). -/
def seedWith (v : SeedWord) (s : State) : State :=
  respond .ok 0 (flagsSeeded (forgetSavedIncr { s with seed := v, counter := 0 }))

/-! ### The draw -/

/-- Step 1 of R107: the message, counter, seed and counter in decimal (R109). All of SEED goes in,
not its low 32 bits. -/
def drawMessage (s : State) : List Byte :=
  dec s.counter.toNat ++ dec s.seed.toNat ++ dec s.counter.toNat

/-- The LCG step (R110): 32-bit wrap-around arithmetic on the low half of SEED, zero-extended. The
constant is the left factor only because evaluation recurses on the right one. -/
def lcgStep (seed : SeedWord) (incr : Word) : SeedWord :=
  (mult * seed.setWidth 32 + incr).setWidth Config.seedW

/-- Steps 1 to 4 of R107: INCR from the message of the old COUNTER and SEED (R109), SEED from the old
SEED and the new INCR (R110), COUNTER one more (R111). -/
def advance (s : State) : State :=
  let c := crc32 (drawMessage s)
  { s with incr := c, seed := lcgStep s.seed c, counter := s.counter + 1 }

/-- `Draw(min, max)` (R107): the result of step 5 and the state it leaves. The caller has checked
that the draw may happen. -/
def draw (min max : Int) (s : State) : Int × State :=
  (outmap ((advance s).seed.setWidth 32).toNat min max, advance s)

end Sys2Proof.Machine
end

