-- ==== Sys2Proof/Machine/ByteDraw.lean ====
section
/-! DEFINITION. The byte and string draw RANDBYTES (44_byte_draw.md). -/

namespace Sys2Proof.Machine

/-- How the loop of a RANDBYTES ended. -/
structure ItemsDone where
  /-- OK, or CounterOverflow if a draw could not start (R130). -/
  code : Code
  /-- How many items have been pushed. -/
  count : Nat
  /-- The state it leaves: the completed draws stand (R130). -/
  state : State
deriving DecidableEq, Repr

/-- The loop of R126 with `left` items still to make and `done` made: each turn is one ordinary draw
(R127), or the overflow stop of R130. -/
def emitItems (fmt : Bool) (range : Int × Int) : Nat → Nat → State → ItemsDone
  | 0, done, s => ⟨.ok, done, s⟩
  | left + 1, done, s =>
    if counterAtTop s then ⟨.counterOverflow, done, s⟩
    else
      let drawn := draw range.1 range.2 s
      emitItems fmt range left (done + 1) (pushOut fmt (BitVec.ofInt 8 drawn.1) drawn.2)

/-- RANDBYTES LENGTH, DEC, RDBL (R126). VALUE is the number of items pushed, with either code
(R71, R130). -/
def execRandBytes (length : Nat) (dec rdbl : Bool) (s : State) :
    Host.Outcome State Fault Refusal :=
  if !s.seeded then .next (raise .notSeeded s)
  else
    let items := emitItems dec (itemRange rdbl) length 0 s
    .next (respond items.code (BitVec.ofNat 32 items.count) items.state)

end Sys2Proof.Machine
end

