-- ==== Sys2Proof/Machine/IntegerDraw.lean ====
section
/-! DEFINITION. The integer draw RANDINT (43_integer_draw.md). -/

namespace Sys2Proof.Machine

/-- RANDINT min, max (R106): the three faults in their order, or one draw whose result is VALUE. -/
def execRandInt (min max : Int) (s : State) : Host.Outcome State Fault Refusal :=
  if !s.seeded then .next (raise .notSeeded s)
  else if min > max then .next (raise .invalidRange s)
  else if counterAtTop s then .next (raise .counterOverflow s)
  else
    let drawn := draw min max s
    .next (respond .ok (BitVec.ofInt 32 drawn.1) drawn.2)

end Sys2Proof.Machine
end

