-- ==== Sys2Proof/Machine/Seeding.lean ====
section
/-! DEFINITION. The seeding commands SEED.T, SEED.I, SEED.S, SEED.X (41_seeding.md). -/

namespace Sys2Proof.Machine

/-- SEED.T (R91). -/
def execSeedT (s : State) : Host.Outcome State Fault Refusal :=
  let sample := sampleTime s
  .next (seedWith (timeSeed sample.1) sample.2)

/-- SEED.I v (R92). -/
def execSeedI (v : Int) (s : State) : Host.Outcome State Fault Refusal :=
  .next (seedWith (integerSeed v) s)

/-- SEED.S LEN (R94). While MSG holds fewer than LEN bytes the block waits inside the command
(R161). -/
def execSeedS (len : Nat) (s : State) : Host.Outcome State Fault Refusal :=
  match popBytes len s with
  | some (bytes, s') => .next (seedWith (stringSeed bytes) s')
  | none => .next (wait s)

/-- SEED.X (R96). -/
def execSeedX (s : State) : Host.Outcome State Fault Refusal :=
  .next (raise .invalidSeed s)

end Sys2Proof.Machine
end

