-- ==== Sys2Proof/Machine/Snapshot.lean ====
section
/-! DEFINITION. The snapshot commands SAVE and RESTORE (42_snapshot.md). -/

namespace Sys2Proof.Machine

/-- SAVE (R100). -/
def execSave (s : State) : Host.Outcome State Fault Refusal :=
  if s.seeded then .next (respond .ok 0 (flagsSaved { s with saved := s.seed }))
  else .next (raise .notSeeded s)

/-- RESTORE (R101). COUNTER, INCR and the snapshot keep their values. -/
def execRestore (s : State) : Host.Outcome State Fault Refusal :=
  if s.seeded then
    if s.savedValid then .next (respond .ok 0 { s with seed := s.saved })
    else .next (raise .invalidState s)
  else .next (raise .notSeeded s)

end Sys2Proof.Machine
end

