-- ==== Sys2Proof/Machine/Dispatch.lean ====
section
/-! DEFINITION. One arm per command (R59). -/

namespace Sys2Proof.Machine

def exec (i : Instr) (s : State) : Host.Outcome State Fault Refusal :=
  match i with
  | .seedT => Sys2Proof.Machine.execSeedT s
  | .seedI v => Sys2Proof.Machine.execSeedI v s
  | .seedS len => Sys2Proof.Machine.execSeedS len s
  | .seedX => Sys2Proof.Machine.execSeedX s
  | .save => Sys2Proof.Machine.execSave s
  | .restore => Sys2Proof.Machine.execRestore s
  | .randInt min max => Sys2Proof.Machine.execRandInt min max s
  | .randBytes length dec rdbl => Sys2Proof.Machine.execRandBytes length dec rdbl s

end Sys2Proof.Machine
end

