-- ==== Sys2Proof/Machine/Step.lean ====
section
/-! DEFINITION. One step: the block works on the oldest record of CMD (R50). -/

namespace Sys2Proof.Machine

/-- One step. With no record on CMD the block is idle (R157); a record that is none of the eight
encodings raises IllegalCommand (R61); any other runs its command. The record leaves CMD with the
command's response (`respond`). -/
def step (s : State) : Host.Outcome State Fault Refusal :=
  match fetch s with
  | none => .next (wait s)
  | some r =>
    match decode r with
    | .error _ => .next (illegalCommand s)
    | .ok i => exec i s

/-- `s` with the record `w` at the head of CMD, where the next step takes it. One CMD record is one
whole command (R55), so the bits above `nbits` are 0. -/
def State.withFetchWord (s : State) (nbits w : Nat) : State :=
  { s with cmd := BitVec.ofNat 96 (w % 2 ^ nbits) :: s.cmd }

end Sys2Proof.Machine
end

