-- ==== Sys2Proof/Machine/HostPort.lean ====
section
/-! DEFINITION. What the host and the platform may do to the block between two steps (R3, R31, R33):
append to CMD and MSG, script TIME, reset. They reach no register. -/

namespace Sys2Proof.Machine

/-- The host puts records on CMD; they are transferred in order (R31, R50). -/
def State.sendCmd (rs : List CmdRecord) (s : State) : State := { s with cmd := s.cmd ++ rs }

/-- The host puts bytes on MSG, in string order (R41, R161). -/
def State.sendMsg (bs : List Byte) (s : State) : State := { s with msg := s.msg ++ bs }

/-- The platform's TIME level at the coming samples (R33). -/
def State.presentTime (ts : List TimeWord) (s : State) : State := { s with time := s.time ++ ts }

/-- The reset input while the block runs (R156): a command in progress is abandoned without a
response, the flags clear, the registers become unspecified, the streams are empty. What the host had
sent goes with it; the platform's TIME stays (log entry 10). -/
def State.applyReset (s : State) : State :=
  { State.reset with
    seed := Config.freeSeed s.freeIndex
    counter := Config.freeCounter s.freeIndex
    saved := Config.freeSaved s.freeIndex
    incr := Config.freeIncr s.freeIndex
    time := s.time
    freeIndex := s.freeIndex + 1 }

/-- The CODE of a response, as the host reads it (R70). -/
def rspCode (r : RspRecord) : BitVec 4 := r.extractLsb' 0 4

/-- The VALUE of a response, as the host reads it (R70, R71). -/
def rspValue (r : RspRecord) : Word := r.extractLsb' 4 32

/-- The FMT of an item, as the host reads it (R128). -/
def outFmt (r : OutRecord) : Bool := r.getLsbD 8

/-- The DATA of an item, as the host reads it (R128). -/
def outData (r : OutRecord) : Byte := r.extractLsb' 0 8

end Sys2Proof.Machine
end

