-- ==== Sys2Proof/Machine/Assembler.lean ====
section
/-! DEFINITION. The assembler of 30_encoding.md: each source line of R75 and each short form of R76
with the records and MSG bytes it stands for. Its lines are given as data; their spelling as text
is not modelled (log entry 15). -/

namespace Sys2Proof.Machine

/-- A seed input as the caller has it (R76): absent, an integer, or a string as its bytes (the
host has encoded a text to UTF-8: R5 c, R95). -/
inductive SeedInput where
  | absent
  | integer (v : Int)
  | bytes (bs : List Byte)
deriving DecidableEq, Repr

/-- One source line: a command of R75 or a short form of R76. -/
inductive Line where
  /-- `SEED.X` (R75). -/
  | seedX
  /-- `SEED.T`, `SEED.I v`, `SEED.S bytes`, `SEED …` and `RESEED …` (R75, R76). -/
  | seed (input : SeedInput)
  /-- `NEW …`: reset, then `SEED …` (R76). -/
  | new (input : SeedInput)
  /-- `SAVE` (R75). -/
  | save
  /-- `RESTORE` (R75). -/
  | restore
  /-- `RANDINT` (R76). -/
  | randIntDefault
  /-- `RANDINT min` (R76). -/
  | randIntFrom (min : Int)
  /-- `RANDINT min, max` (R75). -/
  | randInt (min max : Int)
  /-- `RANDBYTES` (R76). -/
  | randBytesDefault
  /-- `RANDBYTES length` (R76). -/
  | randBytesOf (length : Nat)
  /-- `RANDBYTES length, decimal` (R76). -/
  | randBytesFmt (length : Nat) (decimal : Bool)
  /-- `RANDBYTES length, decimal, readable` (R75). -/
  | randBytes (length : Nat) (decimal readable : Bool)
deriving DecidableEq, Repr

/-- The command of a seed input (R76). -/
def seedCommand : SeedInput → Instr
  | .absent => .seedT
  | .integer v => .seedI v
  | .bytes bs => .seedS bs.length

/-- The MSG bytes of a seed input (R75). -/
def seedBytes : SeedInput → List Byte
  | .bytes bs => bs
  | _ => []

/-- The command a line stands for, with the source's default arguments filled in (R14, R76). -/
def lineCommand : Line → Instr
  | .seedX => .seedX
  | .seed input => seedCommand input
  | .new input => seedCommand input
  | .save => .save
  | .restore => .restore
  | .randIntDefault => .randInt 0 255
  | .randIntFrom min => .randInt min 255
  | .randInt min max => .randInt min max
  | .randBytesDefault => .randBytes 1 false false
  | .randBytesOf length => .randBytes length false false
  | .randBytesFmt length decimal => .randBytes length decimal false
  | .randBytes length decimal readable => .randBytes length decimal readable

/-- The MSG bytes that follow a line's record (R75). -/
def lineBytes : Line → List Byte
  | .seed input => seedBytes input
  | .new input => seedBytes input
  | _ => []

/-- The line begins with a reset (R76). -/
def lineResets : Line → Bool
  | .new _ => true
  | _ => false

/-- Presenting one line to a block: none if an operand is outside its range, which is an assembler
error and not a command (R75). -/
def assemble (l : Line) (s : State) : Option State :=
  if (lineCommand l).wellFormed then
    some (((if lineResets l then s.applyReset else s).sendMsg (lineBytes l)).sendCmd
      [encode (lineCommand l)])
  else none

end Sys2Proof.Machine
end

