-- ==== Sys2Proof/Safety.lean ====
section
/-! DEFINITION. The terms the statements use: what a fault and a seeding do to the state, which code a
record is answered with, what the host can reconstruct from the records alone, and the second,
independent forms of the pure functions (R80, R82, R84, R114). -/

namespace Sys2Proof.Machine

/-! ### Outcomes of a command -/

/-- What a fault with this code leaves: one response, and nothing else changed (R142). -/
def faultState (code : BitVec 4) (s : State) : State :=
  { s with rsp := s.rsp ++ [(0#32 ++ code : BitVec (32 + 4))], cmd := s.cmd.tail }

/-- The common effect of a seeding with the derived seed `v` (R90). SAVED and INCR are unspecified
after it, so nothing is said of them. -/
structure SeededWith (v : Nat) (s t : State) : Prop where
  seed : t.seed.toNat = v
  counter : t.counter = 0
  savedValid : t.savedValid = false
  seeded : t.seeded = true
  rsp : t.rsp = s.rsp ++ [0x000000000#36]
  out : t.out = s.out
  cmd : t.cmd = s.cmd.tail

/-- COUNTER's greatest value (R108). -/
def counterMax : Nat := 2 ^ Config.ctrW - 1

/-- The block waits inside a SEED.S for bytes the host still owes (R161). -/
def waitsForBytes (s : State) : Prop :=
  ∃ r rest len, s.cmd = r :: rest ∧ decode r = .ok (.seedS len) ∧ s.msg.length < len

/-- The one code a record is answered with, the first in the order of R141. A RANDBYTES runs into
the top of COUNTER exactly when its draws would pass it (R130). -/
def reportedCode (s : State) (r : CmdRecord) : BitVec 4 :=
  match decode r with
  | .error _ => 4
  | .ok .seedX => 1
  | .ok .seedT => 0
  | .ok (.seedI _) => 0
  | .ok (.seedS _) => 0
  | .ok .save => if s.seeded = false then 5 else 0
  | .ok .restore => if s.seeded = false then 5 else if s.savedValid = false then 2 else 0
  | .ok (.randInt min max) =>
    if s.seeded = false then 5
    else if min > max then 3
    else if s.counter.toNat = counterMax then 6
    else 0
  | .ok (.randBytes length _ _) =>
    if s.seeded = false then 5 else if counterMax < s.counter.toNat + length then 6 else 0

/-- `n` successive RANDINT commands on the same range, each answered OK with the value at its place
in the list (R127). -/
inductive RandIntRun (min max : Int) : State → List Word → State → Prop where
  | done (s : State) : RandIntRun min max s [] s
  | more (s t u : State) (v : Word) (vs : List Word)
      (first : exec (.randInt min max) s = .next t)
      (answer : t.rsp = s.rsp ++ [(v ++ 0#4 : BitVec (32 + 4))])
      (later : RandIntRun min max t vs u) : RandIntRun min max s (v :: vs) u

/-- The two states hold the same registers and flags, whatever their ports hold (R20). -/
structure SameRegisters (s t : State) : Prop where
  seeded : t.seeded = s.seeded
  savedValid : t.savedValid = s.savedValid
  seed : t.seed = s.seed
  counter : t.counter = s.counter
  saved : t.saved = s.saved
  incr : t.incr = s.incr

/-- How many of the records sample TIME (R36: SEED.T only). -/
def timeSeedings (rs : List CmdRecord) : Nat := rs.countP fun r => decide (decode r = .ok .seedT)

/-- Two blocks no command tells apart: the same flags and inputs, and the same value in every register
that a command in their state reads; SEED and COUNTER are read only while SEEDED = 1, SAVED only while
SAVED_VALID = 1, INCR never (R36). TIME holds a sample for every SEED.T on CMD. -/
structure Indistinguishable (s t : State) : Prop where
  seeded : t.seeded = s.seeded
  savedValid : t.savedValid = s.savedValid
  seed : s.seeded = true → t.seed = s.seed
  counter : s.seeded = true → t.counter = s.counter
  saved : s.savedValid = true → t.saved = s.saved
  cmd : t.cmd = s.cmd
  msg : t.msg = s.msg
  time : t.time = s.time
  samples : timeSeedings s.cmd ≤ s.time.length

/-! ### What the records alone tell (R34) -/

/-- A record kept beside the machine, from its commands, responses and items only. -/
structure History where
  /-- The draws completed since the last successful seeding. -/
  draws : Nat
  /-- The value SEED had when the last SAVE since that seeding executed. -/
  snapshot : Option SeedWord
  /-- The last command that succeeded in writing SEED was a draw. -/
  drawLast : Bool
deriving DecidableEq, Repr

/-- Nothing has happened since reset or since a seeding. -/
def History.start : History := ⟨0, none, false⟩

/-- The step from `s` to `t` emitted a response, and its code is 0. -/
def respondedOk (s t : State) : Bool :=
  decide (s.rsp.length < t.rsp.length) && (t.rsp.getLast?.map rspCode == some 0)

/-- The record after a step from `s` to `t`. -/
def History.after (h : History) (s t : State) : History :=
  match s.cmd.head?.map decode with
  | some (.ok .seedT) => if respondedOk s t then .start else h
  | some (.ok (.seedI _)) => if respondedOk s t then .start else h
  | some (.ok (.seedS _)) => if respondedOk s t then .start else h
  | some (.ok .save) => if respondedOk s t then { h with snapshot := some s.seed } else h
  | some (.ok .restore) => if respondedOk s t then { h with drawLast := false } else h
  | some (.ok (.randInt _ _)) =>
    if respondedOk s t then { h with draws := h.draws + 1, drawLast := true } else h
  | some (.ok (.randBytes _ _ _)) =>
    { h with
      draws := h.draws + (t.out.length - s.out.length)
      drawLast := h.drawLast || decide (s.out.length < t.out.length) }
  | some (.ok .seedX) => h
  | some (.error _) => h
  | none => h

/-- The invariants (a) to (d) of R34, with `h` for what has happened before. -/
structure HistoryInv (h : History) (s : State) : Prop where
  unseeded : s.seeded = false → s.savedValid = false
  drawn : h.drawLast = true → s.seed.toNat < 2 ^ 32
  snapshot : s.savedValid = true → h.snapshot = some s.saved
  counted : s.seeded = true → s.counter.toNat = h.draws

/-- Every response emitted so far has one of the seven codes of R134 (R70). -/
def codesListed (s : State) : Prop := ∀ r ∈ s.rsp, (rspCode r).toNat ≤ 6

/-! ### Second forms of the pure functions -/

/-- The CRC table: entry `t` is the inner loop applied to `t` (R82). -/
def crcTable (t : Byte) : Word := crcBits 8 (t.setWidth 32)

/-- One byte through the table (R82). -/
def crcTableByte (c : Word) (b : Byte) : Word :=
  (c >>> 8) ^^^ crcTable ((c ^^^ b.setWidth 32).setWidth 8)

/-- The table form of the checksum (R82). -/
def crcByTable (bs : List Byte) : Word := bs.foldl crcTableByte 0xFFFFFFFF#32 ^^^ 0xFFFFFFFF#32

/-- One turn of the unreflected register, with the polynomial as R80 gives it. -/
def crcTurn (c : Word) : Word := if c.msb then (c <<< 1) ^^^ 0x04C11DB7#32 else c <<< 1

/-- Eight turns for one byte, which enters at the top, its bits reversed: input reflection (R80). -/
def crcTurns (c : Word) (b : Byte) : Word :=
  crcTurn (crcTurn (crcTurn (crcTurn (crcTurn (crcTurn (crcTurn (crcTurn
    (c ^^^ (b.reverse ++ 0#24 : BitVec (8 + 24))))))))))

/-- The checksum from the parameters of R80: initial value, input and output reflected, final XOR. -/
def crcByParameters (bs : List Byte) : Word :=
  (bs.foldl crcTurns 0xFFFFFFFF#32).reverse ^^^ 0xFFFFFFFF#32

/-- The number an ASCII numeral stands for (R84). -/
def numeralValue (ds : List Byte) : Nat := ds.foldl (fun n d => 10 * n + (d.toNat - 0x30)) 0

/-- A natural number of at most 53 significant bits: binary64 holds it exactly (R114). -/
def representable (v : Nat) : Prop := ∃ m k, m < 2 ^ 53 ∧ v = m * 2 ^ k

/-- The distance of two natural numbers. -/
def distance (a b : Nat) : Nat := (a - b) + (b - a)

/-- `f` applied `n` times. -/
def iterated (f : State → State) : Nat → State → State
  | 0, s => s
  | n + 1, s => iterated f n (f s)

end Sys2Proof.Machine
end

