-- ==== Sys2Proof/Certificates/Slice0/Obligations.lean ====
section
/-! DEFINITION. The statements about the model, each a numbered rule of the spec or a property its
sections give. What a command leaves alone is stated with its result. -/

open Sys2Proof Sys2Proof.Machine

/-! ### Encoding -/

/-- Decoding the encoding of a well-formed command gives it back, for every operand value the
fields carry (30_encoding.md sections 1 and 2). -/
def Obligations.DecodeOfEncodeIsTheCommand : Prop :=
  ∀ i : Instr, i.wellFormed = true → decode (encode i) = .ok i

/-- Every record that decodes is the encoding of its command, but for SEED.X, whose OPD is ignored:
two different records never decode to the same command (R60). -/
def Obligations.RecordOfACommandIsItsEncoding : Prop :=
  ∀ (r : CmdRecord) (i : Instr), decode r = .ok i → i ≠ .seedX → encode i = r

/-- Whatever decodes has every operand in the range R58 gives its field. -/
def Obligations.DecodedCommandsAreInRange : Prop :=
  ∀ (r : CmdRecord) (i : Instr), decode r = .ok i → i.wellFormed = true

/-- The decoder of R60 and the mask-and-match table of R59 are one: a record selects a row exactly
when it decodes to a command of that row. -/
def Obligations.DecodingSelectsTheTableRow : Prop :=
  ∀ (r : CmdRecord) (w : Row), w ∈ opcodeTable →
    (r &&& w.mask = w.pattern ↔ ∃ i, decode r = .ok i ∧ rowOf i = w)

/-- The rows of R59 are disjoint: no record selects two of them. -/
def Obligations.TableRowsAreDisjoint : Prop :=
  opcodeTable.Pairwise fun a b =>
    ∀ r : CmdRecord, ¬ (r &&& a.mask = a.pattern ∧ r &&& b.mask = b.pattern)

/-- R61: which records are ILLEGAL, and that each of them emits CODE = 4 with VALUE = 0 and changes
no state; an ILLEGAL record that looks like SEED.S pops no byte. -/
def Obligations.IllegalRecordsFaultAndChangeNothing : Prop :=
  (∀ r : CmdRecord, (∃ e, decode r = .error e) ↔
    ((r.extractLsb' 0 4).toNat = 0 ∨ 6 ≤ (r.extractLsb' 0 4).toNat) ∨
    r.extractLsb' 8 24 ≠ 0 ∨
    (r.extractLsb' 0 4 ≠ 1 ∧ r.extractLsb' 4 2 ≠ 0) ∨
    (r.extractLsb' 0 4 ≠ 5 ∧ r.extractLsb' 6 2 ≠ 0) ∨
    (((r.extractLsb' 0 4 = 1 ∧ r.extractLsb' 4 2 = 0) ∨ r.extractLsb' 0 4 = 2 ∨
      r.extractLsb' 0 4 = 3) ∧ r.extractLsb' 32 64 ≠ 0) ∨
    (((r.extractLsb' 0 4 = 1 ∧ r.extractLsb' 4 2 = 2) ∨ r.extractLsb' 0 4 = 5) ∧
      r.extractLsb' 64 32 ≠ 0)) ∧
  (∃ e, decode 0x000000000000000000000000#96 = .error e) ∧
  (∃ e, decode 0xFFFFFFFFFFFFFFFFFFFFFFFF#96 = .error e) ∧
  ∀ (s : State) (r : CmdRecord) (rest : List CmdRecord) (e : Reject),
    s.cmd = r :: rest → decode r = .error e →
    step s = .next { s with rsp := s.rsp ++ [0x000000004#36], cmd := rest }

/-- The worked encodings of R77: each CMD record decodes to its command and is what the command
encodes to, and the four RSP records are the responses they are said to be. -/
def Obligations.WorkedRecordsDecodeToTheirCommands : Prop :=
  (∀ p ∈ [((0x000000000000000000000001#96 : CmdRecord), Instr.seedT),
      (0x000000000000002A00000011#96, .seedI 42),
      (0xFFFFFFFFFFFFFFD600000011#96, .seedI (-42)),
      (0x000000010000002A00000011#96, .seedI 4294967338),
      (0x000000000000000400000021#96, .seedS 4),
      (0x000000000000000000000021#96, .seedS 0),
      (0x000000000000000000000031#96, .seedX),
      (0x000000000000000000000002#96, .save),
      (0x000000000000000000000003#96, .restore),
      (0x000000FF0000000000000004#96, .randInt 0 255),
      (0x000000060000000100000004#96, .randInt 1 6),
      (0x00000005FFFFFFFB00000004#96, .randInt (-5) 5),
      (0xFFFFFFFB0000000500000004#96, .randInt 5 (-5)),
      (0x000000000000000100000005#96, .randBytes 1 false false),
      (0x000000000000000500000045#96, .randBytes 5 true false),
      (0x000000000000000800000085#96, .randBytes 8 false true),
      (0x0000000000000003000000C5#96, .randBytes 3 true true)],
    decode p.1 = .ok p.2 ∧ encode p.2 = p.1) ∧
  lineBytes (.seed (.bytes [0x74, 0x65, 0x73, 0x74])) = [0x74, 0x65, 0x73, 0x74] ∧
  lineCommand (.seed (.bytes [0x74, 0x65, 0x73, 0x74])) = .seedS 4 ∧
  rspRecord .ok (BitVec.ofInt 32 61) = 0x0000003D0#36 ∧
  rspRecord .ok (BitVec.ofInt 32 (-3)) = 0xFFFFFFFD0#36 ∧
  rspRecord .invalidRange 0 = 0x000000003#36 ∧
  rspRecord .ok 5 = 0x000000050#36

/-- The short forms of R76 stand for the commands in its table, and `NEW` for a reset of the block
before the command. That a reset also drops what the host had sent on CMD and MSG is the model's choice
(log entry 10). -/
def Obligations.ShortFormsExpandToTheirCommands : Prop :=
  lineCommand .randIntDefault = .randInt 0 255 ∧
  (∀ min, lineCommand (.randIntFrom min) = .randInt min 255) ∧
  lineCommand .randBytesDefault = .randBytes 1 false false ∧
  (∀ n, lineCommand (.randBytesOf n) = .randBytes n false false) ∧
  (∀ n d, lineCommand (.randBytesFmt n d) = .randBytes n d false) ∧
  lineCommand (.seed .absent) = .seedT ∧
  (∀ v, lineCommand (.seed (.integer v)) = .seedI v) ∧
  (∀ bs, lineCommand (.seed (.bytes bs)) = .seedS bs.length) ∧
  (∀ input, lineCommand (.new input) = lineCommand (.seed input) ∧
    lineBytes (.new input) = lineBytes (.seed input)) ∧
  (∀ input s t, assemble (.new input) s = some t →
    t.seeded = false ∧ t.savedValid = false ∧ t.rsp = [] ∧ t.out = [] ∧
    t.cmd = [encode (lineCommand (.seed input))] ∧ t.msg = lineBytes (.seed input)) ∧
  ∀ l s, (lineCommand l).wellFormed = false → assemble l s = none

/-! ### The step -/

/-- The record at the head of CMD is decoded and its command executed, with nothing around it; an idle
block keeps its state (R50, R157). That an idle block is a step to the same state is the model's
reading (log entry 4). -/
def Obligations.StepRunsTheDecodedCommand : Prop :=
  (∀ (s : State) (r : CmdRecord) (rest : List CmdRecord) (i : Instr),
    s.cmd = r :: rest → decode r = .ok i → step s = exec i s) ∧
  ∀ s : State, s.cmd = [] → step s = .next s

/-- R144: no command and no state stops the block; SEED.T, SEED.I and a SEED.S whose bytes are there
succeed in every state; the only command that does not complete is a SEED.S whose bytes the host has
not supplied, and it changes nothing (the wait as a step: log entry 4). -/
def Obligations.NoCommandStopsTheBlock : Prop :=
  (∀ s, ∃ t, step s = .next t) ∧
  (∀ s, ∃ t, exec .seedT s = .next t ∧ t.seeded = true ∧ t.rsp = s.rsp ++ [0x000000000#36]) ∧
  (∀ v s, ∃ t, exec (.seedI v) s = .next t ∧ t.seeded = true ∧
    t.rsp = s.rsp ++ [0x000000000#36]) ∧
  (∀ len s, len ≤ s.msg.length → ∃ t, exec (.seedS len) s = .next t ∧ t.seeded = true ∧
    t.rsp = s.rsp ++ [0x000000000#36]) ∧
  ∀ i s, ∃ t, exec i s = .next t ∧
    ((∃ x, t.rsp = s.rsp ++ [x]) ∨ (∃ len, i = .seedS len ∧ s.msg.length < len ∧ t = s))

/-- Every CMD record gets exactly one response, illegal ones too, and leaves CMD with it; until then
only a SEED.S waits, its record still on CMD (the model's reading, log entry 4), and items are only
ever appended to OUT (20_memory.md R50 a, b, c). -/
def Obligations.EachRecordGetsExactlyOneResponse : Prop :=
  ∀ (s t : State) (r : CmdRecord) (rest : List CmdRecord), s.cmd = r :: rest → step s = .next t →
    (∃ items, t.out = s.out ++ items) ∧
    ((waitsForBytes s ∧ t = s) ∨
      (¬ waitsForBytes s ∧ t.cmd = rest ∧ ∃ x, t.rsp = s.rsp ++ [x]))

/-- R141: a command reports exactly one code, the first that holds in the order of the rule
(`reportedCode` spells it out). -/
def Obligations.TheFirstFaultInOrderIsReported : Prop :=
  ∀ (s t : State) (r : CmdRecord) (rest : List CmdRecord), s.cmd = r :: rest →
    ¬ waitsForBytes s → step s = .next t →
    ∃ value : BitVec 32, t.rsp = s.rsp ++ [(value ++ reportedCode s r : BitVec (32 + 4))]

/-- R142: a fault emits its response and nothing else: no register, flag, MSG byte, item or sample.
The one exception is a RANDBYTES stopped by CounterOverflow after at least one item, whose completed
draws and emitted items stand. -/
def Obligations.FaultsChangeNothingElse : Prop :=
  ∀ (s t : State) (r : CmdRecord) (rest : List CmdRecord) (x : RspRecord), s.cmd = r :: rest →
    step s = .next t → t.rsp = s.rsp ++ [x] → x.extractLsb' 0 4 ≠ 0#4 →
    (x.extractLsb' 4 32 = 0#32 ∧ t = { s with rsp := s.rsp ++ [x], cmd := rest }) ∨
    ∃ length dec rdbl i items, decode r = .ok (.randBytes length dec rdbl) ∧
      0 < i ∧ i < length ∧ s.counter.toNat + i = 2 ^ 64 - 1 ∧ items.length = i ∧
      x = (BitVec.ofNat 32 i ++ 6#4 : BitVec (32 + 4)) ∧
      t = { iterated advance i s with out := s.out ++ items, rsp := s.rsp ++ [x], cmd := rest }

/-- Which command writes which state: the access table R36 (10_state.md section 9). A register, flag or
port with no mark in a command's row is unchanged by that command, whatever its outcome, but for SAVED
and INCR in the rows of SEED.T, SEED.I and SEED.S: a seeding leaves them unspecified (R23, R24, R90; log
entry 2), so nothing is said of them there. The rows' reads that use something up, a TIME sample by
SEED.T (log entry 3) and the MSG bytes by SEED.S, are left to the statements of those commands. -/
def Obligations.CommandsWriteOnlyWhatTheAccessTableSays : Prop :=
  ∀ (i : Instr) (s t : State), exec i s = .next t →
    (i ∈ [Instr.seedX, .save, .restore] ∨ (∃ a b, i = .randInt a b) ∨
      (∃ n d r, i = .randBytes n d r) → t.seeded = s.seeded) ∧
    (i ∈ [Instr.seedX, .restore] ∨ (∃ a b, i = .randInt a b) ∨
      (∃ n d r, i = .randBytes n d r) → t.savedValid = s.savedValid ∧ t.saved = s.saved) ∧
    (i ∈ [Instr.seedX, .save] → t.seed = s.seed) ∧
    (i ∈ [Instr.seedX, .save, .restore] → t.counter = s.counter ∧ t.incr = s.incr) ∧
    ((∀ len, i ≠ .seedS len) → t.msg = s.msg) ∧
    (i ≠ .seedT → t.time = s.time) ∧
    ((∀ n d r, i ≠ .randBytes n d r) → t.out = s.out)

/-- No response ever carries a code above 6 (R70: "7 to 15 never emitted"). -/
def Obligations.EveryStepKeepsTheListedCodes : Prop :=
  codesListed State.reset ∧ ∀ s t, codesListed s → step s = .next t → codesListed t

/-! ### Reset and the host -/

/-- What reset leaves: the flags clear and RSP and OUT empty (R35, R156). Of the four registers, which
are unspecified, nothing is said. That no command in progress and no byte owed is CMD and MSG empty at
`State.reset` is the model's reading (log entry 5), that the block's waiting for a record is a step to
the same state too (log entry 4), and that a reset of a running block drops what the host had sent on
CMD and MSG is the model's choice (log entry 10). -/
def Obligations.ResetClearsTheFlagsAndTheStreams : Prop :=
  (State.reset.seeded = false ∧ State.reset.savedValid = false ∧ State.reset.rsp = [] ∧
    State.reset.out = [] ∧ State.reset.cmd = [] ∧ State.reset.msg = []) ∧
  (∀ s : State, s.applyReset.seeded = false ∧ s.applyReset.savedValid = false ∧
    s.applyReset.rsp = [] ∧ s.applyReset.out = [] ∧ s.applyReset.cmd = [] ∧ s.applyReset.msg = []) ∧
  step State.reset = .next State.reset

/-- The host reaches no register, flag, response or item: it adds to CMD, to MSG or to the TIME level,
and that is all (R3). That input lands between steps, at the end of a list, is the model's reading (log
entries 3 and 5). -/
def Obligations.TheHostReachesNoRegister : Prop :=
  ∀ (s : State) (rs : List CmdRecord) (bs : List Byte) (ts : List TimeWord),
    (SameRegisters s (s.sendCmd rs) ∧ (s.sendCmd rs).rsp = s.rsp ∧ (s.sendCmd rs).out = s.out ∧
      (s.sendCmd rs).cmd = s.cmd ++ rs ∧ (s.sendCmd rs).msg = s.msg ∧ (s.sendCmd rs).time = s.time) ∧
    (SameRegisters s (s.sendMsg bs) ∧ (s.sendMsg bs).rsp = s.rsp ∧ (s.sendMsg bs).out = s.out ∧
      (s.sendMsg bs).cmd = s.cmd ∧ (s.sendMsg bs).msg = s.msg ++ bs ∧ (s.sendMsg bs).time = s.time) ∧
    (SameRegisters s (s.presentTime ts) ∧ (s.presentTime ts).rsp = s.rsp ∧
      (s.presentTime ts).out = s.out ∧ (s.presentTime ts).cmd = s.cmd ∧
      (s.presentTime ts).msg = s.msg ∧ (s.presentTime ts).time = s.time ++ ts)

/-! ### Seeding -/

/-- SEED.T loads one sample of TIME, not reduced, with the common effect of a seeding (R90, R91).
That the sample is the head of a script, and free where it has ended, is the model's (log entry 3). -/
def Obligations.TimeSeedingLoadsOneSample : Prop :=
  ∀ s : State, ∃ t, exec .seedT s = .next t ∧
    SeededWith (s.time.headD (Config.freeTime s.freeIndex)).toNat s t ∧
    t.time = s.time.tail ∧ t.msg = s.msg

/-- SEED.I loads the absolute value, all 64 bits of it, with the common effect of a seeding (R90,
R92). -/
def Obligations.IntegerSeedingLoadsTheMagnitude : Prop :=
  ∀ (v : Int) (s : State), (Instr.seedI v).wellFormed = true →
    ∃ t, exec (.seedI v) s = .next t ∧ SeededWith v.natAbs s t ∧ t.msg = s.msg ∧ t.time = s.time

/-- SEED.S pops LEN bytes in order and loads their CRC-32, with the common effect of a seeding (R90,
R94). -/
def Obligations.StringSeedingLoadsTheChecksum : Prop :=
  ∀ (bytes later : List Byte) (s : State), s.msg = bytes ++ later →
    ∃ t, exec (.seedS bytes.length) s = .next t ∧ SeededWith (crc32 bytes).toNat s t ∧
      t.msg = later ∧ t.time = s.time

/-- A SEED.S whose bytes have not come waits: it takes no other record, emits no response and keeps
the state it had; once they have come it completes (70_reset_and_hazards.md R161). The wait as a step
to the same state is the model's reading (log entry 4). -/
def Obligations.StringSeedingWaitsForItsBytes : Prop :=
  (∀ (len : Nat) (s : State), s.msg.length < len → exec (.seedS len) s = .next s) ∧
  ∀ (len : Nat) (s : State) (bs : List Byte), len ≤ s.msg.length + bs.length →
    ∃ t, exec (.seedS len) (s.sendMsg bs) = .next t ∧
      SeededWith (crc32 ((s.msg ++ bs).take len)).toNat s t ∧ t.msg = (s.msg ++ bs).drop len

/-- R135: SEED.X answers CODE 1 and leaves the state as it was, and no other command answers it; SEED.T,
SEED.I and SEED.S accept every operand value. -/
def Obligations.OnlyOtherSeedKindsAreInvalid : Prop :=
  (∀ s, exec .seedX s = .next (faultState 1 s)) ∧
  (∀ opd : BitVec 64, decode (opd ++ 0x00000031#32 : BitVec (64 + 32)) = .ok .seedX) ∧
  (∀ i s t x, i ≠ .seedX → exec i s = .next t → t.rsp = s.rsp ++ [x] → x.extractLsb' 0 4 ≠ 1#4) ∧
  ∀ i s t x, (i = .seedT ∨ (∃ v, i = .seedI v) ∨ ∃ len, i = .seedS len) → exec i s = .next t →
    t.rsp = s.rsp ++ [x] → x = 0x000000000#36

/-- R97, replay: after a SEED.I or SEED.S, and after a SEED.T given the same samples, the responses
and items of every later command are the same whatever the state was before. TIME holds a sample for
every SEED.T among the commands, so no sample is the model's own free value (log entry 3). -/
def Obligations.SeedingMakesReplayExact : Prop :=
  ∀ (s₁ s₂ : State) (r : CmdRecord) (rest : List CmdRecord) (i : Instr),
    s₁.cmd = r :: rest → s₂.cmd = s₁.cmd → s₂.msg = s₁.msg → s₂.time = s₁.time →
    timeSeedings s₁.cmd ≤ s₁.time.length → decode r = .ok i →
    (i = .seedT ∨ (∃ v, i = .seedI v) ∨ (∃ len, i = .seedS len)) →
    ∀ n, ∃ t₁ t₂ responses items, core.run n s₁ = .next t₁ ∧ core.run n s₂ = .next t₂ ∧
      t₁.rsp = s₁.rsp ++ responses ∧ t₂.rsp = s₂.rsp ++ responses ∧
      t₁.out = s₁.out ++ items ∧ t₂.out = s₂.out ++ items

/-- The step behind replay (R97): two blocks that no command tells apart, whatever their other
registers hold, answer the same and stay so. How TIME gives its samples is the model's (log entry 3). -/
def Obligations.IndistinguishableBlocksStaySo : Prop :=
  ∀ s₁ s₂ : State, Indistinguishable s₁ s₂ →
    ∃ t₁ t₂ responses items, step s₁ = .next t₁ ∧ step s₂ = .next t₂ ∧ Indistinguishable t₁ t₂ ∧
      t₁.rsp = s₁.rsp ++ responses ∧ t₂.rsp = s₂.rsp ++ responses ∧
      t₁.out = s₁.out ++ items ∧ t₂.out = s₂.out ++ items

/-! ### Snapshot -/

/-- SAVE on a seeded block copies all of SEED into SAVED and marks the snapshot; nothing else changes
(R100). -/
def Obligations.SaveCopiesTheSeed : Prop :=
  ∀ s : State, s.seeded = true → exec .save s =
    .next { s with
      saved := s.seed, savedValid := true, rsp := s.rsp ++ [0x000000000#36], cmd := s.cmd.tail }

/-- RESTORE with a snapshot copies it into SEED; COUNTER, INCR and the snapshot stay (R101). -/
def Obligations.RestoreRewindsOnlyTheSeed : Prop :=
  ∀ s : State, s.seeded = true → s.savedValid = true → exec .restore s =
    .next { s with seed := s.saved, rsp := s.rsp ++ [0x000000000#36], cmd := s.cmd.tail }

/-- R136: RESTORE without a snapshot answers InvalidState and changes nothing; there is no snapshot
after reset and after every successful seeding, until the next SAVE. -/
def Obligations.RestoreWithoutASnapshotIsInvalid : Prop :=
  (∀ s : State, s.seeded = true → s.savedValid = false →
    exec .restore s = .next (faultState 2 s)) ∧
  State.reset.savedValid = false ∧
  (∀ i s t, i = .seedT ∨ (∃ v, i = .seedI v) ∨ (∃ len, i = .seedS len ∧ len ≤ s.msg.length) →
    exec i s = .next t → t.savedValid = false) ∧
  ∀ i s t, exec i s = .next t → s.savedValid = false → t.savedValid = true → i = .save

/-- R103: SAVE then RESTORE changes nothing except SAVED and SAVED_VALID, and a second RESTORE changes
nothing more. -/
def Obligations.SaveThenRestoreChangesOnlyTheSnapshot : Prop :=
  (∀ s t u : State, s.seeded = true → exec .save s = .next t → exec .restore t = .next u →
    SameRegisters { s with saved := u.saved, savedValid := u.savedValid } u ∧
    u.msg = s.msg ∧ u.time = s.time ∧ u.out = s.out) ∧
  ∀ s t u : State, s.seeded = true → s.savedValid = true →
    exec .restore s = .next t → exec .restore t = .next u →
    SameRegisters t u ∧ u.msg = t.msg ∧ u.time = t.time ∧ u.out = t.out

/-- After RESTORE the draw's message is made of the restored seed and the running counter, which
RESTORE did not rewind (R102, R163). -/
def Obligations.DrawAfterRestoreKeepsCounting : Prop :=
  ∀ (s t u : State) (min max : Int), s.seeded = true → s.savedValid = true → min ≤ max →
    s.counter.toNat < counterMax → exec .restore s = .next t → exec (.randInt min max) t = .next u →
    u.incr = crc32 (dec s.counter.toNat ++ dec s.saved.toNat ++ dec s.counter.toNat) ∧
    u.counter.toNat = s.counter.toNat + 1

/-- SAVE, a successful seeding of any of the three kinds, RESTORE ends in InvalidState, not in the old
seed value (R164). -/
def Obligations.SeedingDiscardsTheSnapshot : Prop :=
  ∀ (i : Instr) (s t u : State), exec .save s = .next t →
    (i = .seedT ∨ (∃ v, i = .seedI v) ∨ ∃ len, i = .seedS len ∧ len ≤ t.msg.length) →
    exec i t = .next u → exec .restore u = .next (faultState 2 u)

/-! ### The integer draw -/

/-- RANDINT on a seeded block with min ≤ max and a draw left: INCR, SEED, COUNTER and VALUE as the five
steps of the draw give them, and nothing else changes (R106, R107). -/
def Obligations.RandIntPerformsOneDraw : Prop :=
  ∀ (min max : Int) (s : State), (Instr.randInt min max).wellFormed = true → s.seeded = true →
    min ≤ max → s.counter.toNat < 2 ^ 64 - 1 →
    ∃ c : BitVec 32, ∃ n : Nat,
      c = crc32 (dec s.counter.toNat ++ dec s.seed.toNat ++ dec s.counter.toNat) ∧
      n = (s.seed.toNat * 1664525 + c.toNat) % 2 ^ 32 ∧
      exec (.randInt min max) s = .next { s with
        incr := c
        seed := BitVec.ofNat 64 n
        counter := BitVec.ofNat 64 (s.counter.toNat + 1)
        rsp := s.rsp ++ [(BitVec.ofInt 32 (outmap n min max) ++ 0#4 : BitVec (32 + 4))]
        cmd := s.cmd.tail }

/-- R118: RANDINT with min > max, compared as signed values, answers InvalidRange and draws nothing;
the next draw is what it would have been. -/
def Obligations.RandIntRefusesAnEmptyRange : Prop :=
  (∀ (min max : Int) (s : State), s.seeded = true → min > max →
    exec (.randInt min max) s = .next (faultState 3 s) ∧
    SameRegisters s (faultState 3 s)) ∧
  (∀ (min max a b : Int) (s t : State), s.seeded = true → min > max →
    exec (.randInt a b) s = .next t →
    ∃ u x, exec (.randInt a b) (faultState 3 s) = .next u ∧ SameRegisters t u ∧
      t.rsp = s.rsp ++ [x] ∧ u.rsp = (faultState 3 s).rsp ++ [x]) ∧
  (∀ s : State, s.seeded = true → exec (.randInt 5 (-5)) s = .next (faultState 3 s)) ∧
  ∀ s t x, s.seeded = true → exec (.randInt (-5) 5) s = .next t → t.rsp = s.rsp ++ [x] →
    x.extractLsb' 0 4 ≠ 3#4

/-- R140: a draw that would increment COUNTER = 2^64 - 1 is refused with CounterOverflow: by RANDINT and
by a RANDBYTES at its first item with nothing changed, and by a RANDBYTES of more items than draws are
left, which stops with COUNTER at 2^64 - 1. -/
def Obligations.NoDrawPassesTheTopOfTheCounter : Prop :=
  (∀ s : State, s.seeded = true → s.counter.toNat = 2 ^ 64 - 1 →
    (∀ min max, min ≤ max → exec (.randInt min max) s = .next (faultState 6 s)) ∧
    ∀ n dec rdbl, 0 < n → exec (.randBytes n dec rdbl) s = .next (faultState 6 s)) ∧
  ∀ (s : State) (n : Nat) (dec rdbl : Bool), s.seeded = true →
    2 ^ 64 - 1 < s.counter.toNat + n →
    ∃ t x, exec (.randBytes n dec rdbl) s = .next t ∧ t.rsp = s.rsp ++ [x] ∧
      x.extractLsb' 0 4 = 6#4 ∧ t.counter.toNat = 2 ^ 64 - 1

/-- R139: while SEEDED = 0 SAVE, RESTORE, RANDINT and RANDBYTES answer NotSeeded and change nothing, a
RANDBYTES of no items too; and SEEDED = 0 from reset until the first successful SEED command. -/
def Obligations.UnseededCommandsFault : Prop :=
  (∀ s : State, s.seeded = false →
    exec .save s = .next (faultState 5 s) ∧ exec .restore s = .next (faultState 5 s) ∧
    (∀ min max, exec (.randInt min max) s = .next (faultState 5 s)) ∧
    ∀ n dec rdbl, exec (.randBytes n dec rdbl) s = .next (faultState 5 s)) ∧
  State.reset.seeded = false ∧
  ∀ i s t, exec i s = .next t →
    (t.seeded = true ↔ s.seeded = true ∨ i = .seedT ∨ (∃ v, i = .seedI v) ∨
      ∃ len, i = .seedS len ∧ len ≤ s.msg.length)

/-- The value a RANDINT answers lies in the range asked for (R106, and the source's containment
property). -/
def Obligations.RandIntAnswersInTheRange : Prop :=
  ∀ (min max : Int) (s t : State) (x : RspRecord), (Instr.randInt min max).wellFormed = true →
    exec (.randInt min max) s = .next t → t.rsp = s.rsp ++ [x] → x.extractLsb' 0 4 = 0#4 →
    min ≤ (x.extractLsb' 4 32).toInt ∧ (x.extractLsb' 4 32).toInt ≤ max

/-- The state after a draw does not depend on the range asked for, which shapes only the value
answered (R160). -/
def Obligations.TheRangeShapesOnlyTheAnswer : Prop :=
  ∀ (a b c d : Int) (s t u : State), a ≤ b → c ≤ d → exec (.randInt a b) s = .next t →
    exec (.randInt c d) s = .next u → { t with rsp := u.rsp } = u

/-- One full-range answer shows the whole of the new SEED, and a byte answer its top byte (R116 d and f,
R168). -/
def Obligations.AnswersRevealTheSeed : Prop :=
  ∀ s : State, s.seeded = true → s.counter.toNat < 2 ^ 64 - 1 →
    (∃ (t : State) (v : Word), exec (.randInt (-(2 ^ 31)) (2 ^ 31 - 1)) s = .next t ∧
      t.rsp = s.rsp ++ [(v ++ 0#4 : BitVec (32 + 4))] ∧ v.toInt + 2 ^ 31 = t.seed.toNat) ∧
    ∃ (t : State) (v : Word), exec (.randInt 0 255) s = .next t ∧ t.rsp = s.rsp ++ [(v ++ 0#4 : BitVec (32 + 4))] ∧
      v.toNat = t.seed.toNat / 2 ^ 24

/-- R110: the LCG step modulo 2^32, that it needs only the low 32 bits of SEED, that SEED is below 2^32
after it, that it is what a draw does to SEED, and the rule's two examples. -/
def Obligations.LcgStepIsModuloTwoToThe32 : Prop :=
  (∀ (seed : SeedWord) (incr : Word),
    (lcgStep seed incr).toNat = (seed.toNat * 1664525 + incr.toNat) % 2 ^ 32 ∧
    (lcgStep seed incr).toNat = ((seed.extractLsb' 0 32).toNat * 1664525 + incr.toNat) % 2 ^ 32 ∧
    (lcgStep seed incr).toNat < 2 ^ 32) ∧
  (∀ s : State, (advance s).seed.toNat =
    (s.seed.toNat * 1664525 + (advance s).incr.toNat) % 2 ^ 32) ∧
  lcgStep 42 967052844 = 1036962894 ∧ lcgStep 1036962894 3786939974 = 1581093436

/-! ### The byte draw -/

/-- RANDBYTES on a seeded block with draws enough left: LENGTH items, item k the mapped SEED after draw
k, all with FMT = DEC; the registers as LENGTH draws leave them; VALUE = LENGTH (R126, R128). -/
def Obligations.RandBytesEmitsOneItemPerDraw : Prop :=
  ∀ (length : Nat) (dec rdbl : Bool) (s : State), s.seeded = true →
    (Instr.randBytes length dec rdbl).wellFormed = true → s.counter.toNat + length ≤ 2 ^ 64 - 1 →
    exec (.randBytes length dec rdbl) s = .next { iterated advance length s with
      out := s.out ++ (List.range length).map fun k =>
        (BitVec.ofBool dec ++ BitVec.ofInt 8
          (outmap ((iterated advance (k + 1) s).seed.setWidth 32).toNat
            (if rdbl then 32 else 0) (if rdbl then 126 else 255)) : BitVec (1 + 8))
      rsp := s.rsp ++ [(BitVec.ofNat 32 length ++ 0#4 : BitVec (32 + 4))]
      cmd := s.cmd.tail }

/-- R130, partial completion: a RANDBYTES that reaches the top of COUNTER before item i answers
CounterOverflow with VALUE = i, keeps the i items and registers, and makes no further item. -/
def Obligations.RandBytesKeepsItsItemsOnOverflow : Prop :=
  ∀ (i length : Nat) (dec rdbl : Bool) (s : State), s.seeded = true →
    (Instr.randBytes length dec rdbl).wellFormed = true → s.counter.toNat + i = 2 ^ 64 - 1 →
    i < length →
    exec (.randBytes length dec rdbl) s = .next { iterated advance i s with
      out := s.out ++ (List.range i).map fun k =>
        (BitVec.ofBool dec ++ BitVec.ofInt 8
          (outmap ((iterated advance (k + 1) s).seed.setWidth 32).toNat
            (if rdbl then 32 else 0) (if rdbl then 126 else 255)) : BitVec (1 + 8))
      rsp := s.rsp ++ [(BitVec.ofNat 32 i ++ 6#4 : BitVec (32 + 4))]
      cmd := s.cmd.tail }

/-- A RANDBYTES leaves the same registers as LENGTH times RANDINT on its range, and its DATA values are
their results in order (R127). -/
def Obligations.RandBytesIsSuccessiveRandInts : Prop :=
  ∀ (length : Nat) (dec rdbl : Bool) (s : State), s.seeded = true →
    (Instr.randBytes length dec rdbl).wellFormed = true → s.counter.toNat + length ≤ 2 ^ 64 - 1 →
    ∃ (values : List Word) (u t : State), values.length = length ∧
      RandIntRun (if rdbl then 32 else 0) (if rdbl then 126 else 255) s values u ∧
      exec (.randBytes length dec rdbl) s = .next t ∧ SameRegisters u t ∧
      t.out = s.out ++ values.map (fun v =>
        (BitVec.ofBool dec ++ v.extractLsb' 0 8 : BitVec (1 + 8)))

/-- A RANDBYTES of length a and then one of length b, with the same options, give the same items and
registers as one of length a + b (R127). -/
def Obligations.RandBytesLengthsAdd : Prop :=
  ∀ (a b : Nat) (dec rdbl : Bool) (s t u w : State), s.seeded = true →
    s.counter.toNat + (a + b) ≤ 2 ^ 64 - 1 →
    exec (.randBytes a dec rdbl) s = .next t → exec (.randBytes b dec rdbl) t = .next u →
    exec (.randBytes (a + b) dec rdbl) s = .next w → SameRegisters u w ∧ w.out = u.out

/-- With the readable option every item is one of the 95 printable ASCII characters, and every item of
a command has its DEC as FMT (R128, R129). -/
def Obligations.ReadableItemsArePrintable : Prop :=
  ∀ (length : Nat) (dec : Bool) (s t : State) (items : List OutRecord),
    exec (.randBytes length dec true) s = .next t → t.out = s.out ++ items →
    ∀ x ∈ items, 0x20 ≤ (x.extractLsb' 0 8).toNat ∧ (x.extractLsb' 0 8).toNat ≤ 0x7E ∧
      x.getLsbD 8 = dec

/-! ### The state over a whole run -/

/-- The invariants of R34 hold at reset. -/
def Obligations.HistoryHoldsAtReset : Prop := HistoryInv .start State.reset

/-- Every step keeps the invariants of R34: no snapshot on an unseeded block; SEED below 2^32 after a
draw; SAVED is what SEED held at the last SAVE since the seeding; COUNTER is the number of draws since
the seeding, whatever SAVE and RESTORE came between. -/
def Obligations.EveryStepKeepsTheHistory : Prop :=
  ∀ (h : History) (s t : State), HistoryInv h s → step s = .next t → HistoryInv (h.after s t) t

/-! ### The pure functions -/

/-- R83: the checksums the rule gives to check against. -/
def Obligations.ChecksumsOfTheGivenStrings : Prop :=
  crc32 [] = 0x00000000#32 ∧
  crc32 [0x31, 0x32, 0x33, 0x34, 0x35, 0x36, 0x37, 0x38, 0x39] = 0xCBF43926#32 ∧
  crc32 [0x74, 0x65, 0x73, 0x74] = 0xD87F7E0C#32 ∧ (0xD87F7E0C#32).toNat = 3632233996 ∧
  crc32 [0x61] = 0xE8B7BE43#32 ∧ crc32 [0x00] = 0xD202EF8D#32 ∧ crc32 [0xFF] = 0xFF000000#32 ∧
  ∀ s : State, s.msg = [0x74, 0x65, 0x73, 0x74] →
    ∃ t, exec (.seedS 4) s = .next t ∧ t.seed.toNat = 3632233996

/-- The table form of the checksum returns the same value for every byte sequence (R82). -/
def Obligations.TableChecksumAgrees : Prop := ∀ bs : List Byte, crc32 bs = crcByTable bs

/-- The reflected algorithm of R81 is the checksum with the parameters of R80: polynomial 0x04C11DB7,
initial value and final XOR 0xFFFFFFFF, input and output reflected. -/
def Obligations.ChecksumHasTheGivenParameters : Prop :=
  ∀ bs : List Byte, crc32 bs = crcByParameters bs

/-- R84: the numeral of n has the value n, only the digits 0x30 to 0x39, no leading zero, and dec(0) is
the one byte 0x30. -/
def Obligations.NumeralsAreTheShortestDecimal : Prop :=
  (∀ n : Nat, numeralValue (dec n) = n) ∧
  (∀ n : Nat, ∀ d ∈ dec n, 0x30 ≤ d.toNat ∧ d.toNat ≤ 0x39) ∧
  (∀ n : Nat, 0 < n → ∃ d ds, dec n = d :: ds ∧ d ≠ 0x30) ∧
  dec 0 = [0x30]

/-- R86: the lengths of numerals and of a draw's message, that a draw leaves at most ten digits in SEED,
and the two states with the same message. -/
def Obligations.MessagesAreThreeToSixtyBytes : Prop :=
  (∀ n : Nat, n < 2 ^ 64 → 1 ≤ (dec n).length ∧ (dec n).length ≤ 20) ∧
  (dec 18446744073709551615).length = 20 ∧
  (∀ s : State, 3 ≤ (drawMessage s).length ∧ (drawMessage s).length ≤ 60) ∧
  (∀ s : State, (advance s).seed.toNat < 2 ^ 32 ∧ (dec (advance s).seed.toNat).length ≤ 10) ∧
  dec 1 ++ dec 111 ++ dec 1 = [0x31, 0x31, 0x31, 0x31, 0x31] ∧
  dec 11 ++ dec 1 ++ dec 11 = [0x31, 0x31, 0x31, 0x31, 0x31]

/-- `rn53` gives the nearest number of at most 53 significant bits, and where two are equally near the
one whose 53rd bit is even (R114). -/
def Obligations.RoundingIsToNearestEven : Prop :=
  ∀ p : Nat, p < 2 ^ 64 →
    representable (rn53 p) ∧
    (∀ v, representable v → distance (rn53 p) p ≤ distance v p) ∧
    ∀ v, representable v → v ≠ rn53 p → distance v p = distance (rn53 p) p →
      ∃ m k, 2 ^ 52 ≤ m ∧ m < 2 ^ 53 ∧ m % 2 = 0 ∧ rn53 p = m * 2 ^ k

/-- The mapper's result lies in the range asked for (R116 a). -/
def Obligations.MappedValuesStayInTheRange : Prop :=
  ∀ (s : Nat) (min max : Int), s < 2 ^ 32 → (Instr.randInt min max).wellFormed = true →
    min ≤ max → min ≤ outmap s min max ∧ outmap s min max ≤ max

/-- The mapper is monotone in the seed (R116 b). -/
def Obligations.MappedValuesAreMonotone : Prop :=
  ∀ (a b : Nat) (min max : Int), a ≤ b → b < 2 ^ 32 →
    (Instr.randInt min max).wellFormed = true → min ≤ max → outmap a min max ≤ outmap b min max

/-- The mapper on the ranges R116 c to f names: seed 0, one value, a byte, a printable character, the
full range. -/
def Obligations.MappedValuesOnTheNamedRanges : Prop :=
  ∀ s : Nat, s < 2 ^ 32 →
    (∀ min max : Int, outmap 0 min max = min) ∧ (∀ m : Int, outmap s m m = m) ∧
    outmap s 0 255 = (s / 2 ^ 24 : Nat) ∧ outmap s 32 126 = ((s * 95 / 2 ^ 32 : Nat) : Int) + 32 ∧
    outmap s (-(2 ^ 31)) (2 ^ 31 - 1) = s - 2 ^ 31

/-- For spans up to 2^21 the rounding changes nothing and the mapper is exact integer scaling
(R115). -/
def Obligations.SmallSpansAreMappedExactly : Prop :=
  ∀ (s : Nat) (min max : Int), s < 2 ^ 32 → min ≤ max → max - min + 1 ≤ 2 ^ 21 →
    outmap s min max = ((s : Int) * (max - min + 1)) / 2 ^ 32 + min
end

