-- ==== Sys2Proof/Laws/State.lean ====
section
/-! SUPPORT. For each state update of the model, what every field holds after it: one lemma per field,
so that no later proof unfolds a record update. -/

namespace Sys2Proof.Machine

/-- The width of SEED and SAVED, as a numeral (R8). -/
@[simp] theorem seedW_eq : Config.seedW = 64 := rfl

/-- The width of COUNTER, as a numeral (R9). -/
@[simp] theorem ctrW_eq : Config.ctrW = 64 := rfl

/-- COUNTER's greatest value, as a numeral (R108). -/
theorem counterMax_eq : counterMax = 2 ^ 64 - 1 := rfl

/-! ### `respond` (R17) -/

@[simp] theorem respond_seeded (c : Code) (v : Word) (s : State) :
    (respond c v s).seeded = s.seeded := rfl
@[simp] theorem respond_savedValid (c : Code) (v : Word) (s : State) :
    (respond c v s).savedValid = s.savedValid := rfl
@[simp] theorem respond_seed (c : Code) (v : Word) (s : State) :
    (respond c v s).seed = s.seed := rfl
@[simp] theorem respond_counter (c : Code) (v : Word) (s : State) :
    (respond c v s).counter = s.counter := rfl
@[simp] theorem respond_saved (c : Code) (v : Word) (s : State) :
    (respond c v s).saved = s.saved := rfl
@[simp] theorem respond_incr (c : Code) (v : Word) (s : State) :
    (respond c v s).incr = s.incr := rfl
@[simp] theorem respond_cmd (c : Code) (v : Word) (s : State) :
    (respond c v s).cmd = s.cmd.tail := rfl
@[simp] theorem respond_msg (c : Code) (v : Word) (s : State) : (respond c v s).msg = s.msg := rfl
@[simp] theorem respond_time (c : Code) (v : Word) (s : State) :
    (respond c v s).time = s.time := rfl
@[simp] theorem respond_rsp (c : Code) (v : Word) (s : State) :
    (respond c v s).rsp = s.rsp ++ [rspRecord c v] := rfl
@[simp] theorem respond_out (c : Code) (v : Word) (s : State) : (respond c v s).out = s.out := rfl
@[simp] theorem respond_freeIndex (c : Code) (v : Word) (s : State) :
    (respond c v s).freeIndex = s.freeIndex := rfl

/-! ### Taking a fault (R142) -/

@[simp] theorem raise_seeded (c : Code) (s : State) : (raise c s).seeded = s.seeded := rfl
@[simp] theorem raise_savedValid (c : Code) (s : State) :
    (raise c s).savedValid = s.savedValid := rfl
@[simp] theorem raise_seed (c : Code) (s : State) : (raise c s).seed = s.seed := rfl
@[simp] theorem raise_counter (c : Code) (s : State) : (raise c s).counter = s.counter := rfl
@[simp] theorem raise_saved (c : Code) (s : State) : (raise c s).saved = s.saved := rfl
@[simp] theorem raise_incr (c : Code) (s : State) : (raise c s).incr = s.incr := rfl
@[simp] theorem raise_cmd (c : Code) (s : State) : (raise c s).cmd = s.cmd.tail := rfl
@[simp] theorem raise_msg (c : Code) (s : State) : (raise c s).msg = s.msg := rfl
@[simp] theorem raise_time (c : Code) (s : State) : (raise c s).time = s.time := rfl
@[simp] theorem raise_rsp (c : Code) (s : State) : (raise c s).rsp = s.rsp ++ [rspRecord c 0] := rfl
@[simp] theorem raise_out (c : Code) (s : State) : (raise c s).out = s.out := rfl
@[simp] theorem raise_freeIndex (c : Code) (s : State) : (raise c s).freeIndex = s.freeIndex := rfl

/-! ### An ILLEGAL record (R61) -/

@[simp] theorem illegalCommand_seeded (s : State) : (illegalCommand s).seeded = s.seeded := rfl
@[simp] theorem illegalCommand_savedValid (s : State) :
    (illegalCommand s).savedValid = s.savedValid := rfl
@[simp] theorem illegalCommand_seed (s : State) : (illegalCommand s).seed = s.seed := rfl
@[simp] theorem illegalCommand_counter (s : State) : (illegalCommand s).counter = s.counter := rfl
@[simp] theorem illegalCommand_saved (s : State) : (illegalCommand s).saved = s.saved := rfl
@[simp] theorem illegalCommand_incr (s : State) : (illegalCommand s).incr = s.incr := rfl
@[simp] theorem illegalCommand_cmd (s : State) : (illegalCommand s).cmd = s.cmd.tail := rfl
@[simp] theorem illegalCommand_msg (s : State) : (illegalCommand s).msg = s.msg := rfl
@[simp] theorem illegalCommand_time (s : State) : (illegalCommand s).time = s.time := rfl
@[simp] theorem illegalCommand_rsp (s : State) :
    (illegalCommand s).rsp = s.rsp ++ [rspRecord .illegalCommand 0] := rfl
@[simp] theorem illegalCommand_out (s : State) : (illegalCommand s).out = s.out := rfl
@[simp] theorem illegalCommand_freeIndex (s : State) :
    (illegalCommand s).freeIndex = s.freeIndex := rfl

/-! ### The flags of a seeding (R25, R26) -/

@[simp] theorem flagsSeeded_seeded (s : State) : (flagsSeeded s).seeded = true := rfl
@[simp] theorem flagsSeeded_savedValid (s : State) : (flagsSeeded s).savedValid = false := rfl
@[simp] theorem flagsSeeded_seed (s : State) : (flagsSeeded s).seed = s.seed := rfl
@[simp] theorem flagsSeeded_counter (s : State) : (flagsSeeded s).counter = s.counter := rfl
@[simp] theorem flagsSeeded_saved (s : State) : (flagsSeeded s).saved = s.saved := rfl
@[simp] theorem flagsSeeded_incr (s : State) : (flagsSeeded s).incr = s.incr := rfl
@[simp] theorem flagsSeeded_cmd (s : State) : (flagsSeeded s).cmd = s.cmd := rfl
@[simp] theorem flagsSeeded_msg (s : State) : (flagsSeeded s).msg = s.msg := rfl
@[simp] theorem flagsSeeded_time (s : State) : (flagsSeeded s).time = s.time := rfl
@[simp] theorem flagsSeeded_rsp (s : State) : (flagsSeeded s).rsp = s.rsp := rfl
@[simp] theorem flagsSeeded_out (s : State) : (flagsSeeded s).out = s.out := rfl
@[simp] theorem flagsSeeded_freeIndex (s : State) : (flagsSeeded s).freeIndex = s.freeIndex := rfl

/-! ### The flag of SAVE (R25) -/

@[simp] theorem flagsSaved_seeded (s : State) : (flagsSaved s).seeded = s.seeded := rfl
@[simp] theorem flagsSaved_savedValid (s : State) : (flagsSaved s).savedValid = true := rfl
@[simp] theorem flagsSaved_seed (s : State) : (flagsSaved s).seed = s.seed := rfl
@[simp] theorem flagsSaved_counter (s : State) : (flagsSaved s).counter = s.counter := rfl
@[simp] theorem flagsSaved_saved (s : State) : (flagsSaved s).saved = s.saved := rfl
@[simp] theorem flagsSaved_incr (s : State) : (flagsSaved s).incr = s.incr := rfl
@[simp] theorem flagsSaved_cmd (s : State) : (flagsSaved s).cmd = s.cmd := rfl
@[simp] theorem flagsSaved_msg (s : State) : (flagsSaved s).msg = s.msg := rfl
@[simp] theorem flagsSaved_time (s : State) : (flagsSaved s).time = s.time := rfl
@[simp] theorem flagsSaved_rsp (s : State) : (flagsSaved s).rsp = s.rsp := rfl
@[simp] theorem flagsSaved_out (s : State) : (flagsSaved s).out = s.out := rfl
@[simp] theorem flagsSaved_freeIndex (s : State) : (flagsSaved s).freeIndex = s.freeIndex := rfl

/-! ### SAVED and INCR after a seeding (R23, R24) -/

@[simp] theorem forgetSavedIncr_seeded (s : State) : (forgetSavedIncr s).seeded = s.seeded := rfl
@[simp] theorem forgetSavedIncr_savedValid (s : State) :
    (forgetSavedIncr s).savedValid = s.savedValid := rfl
@[simp] theorem forgetSavedIncr_seed (s : State) : (forgetSavedIncr s).seed = s.seed := rfl
@[simp] theorem forgetSavedIncr_counter (s : State) : (forgetSavedIncr s).counter = s.counter := rfl
@[simp] theorem forgetSavedIncr_saved (s : State) :
    (forgetSavedIncr s).saved = Config.freeSaved s.freeIndex := rfl
@[simp] theorem forgetSavedIncr_incr (s : State) :
    (forgetSavedIncr s).incr = Config.freeIncr s.freeIndex := rfl
@[simp] theorem forgetSavedIncr_cmd (s : State) : (forgetSavedIncr s).cmd = s.cmd := rfl
@[simp] theorem forgetSavedIncr_msg (s : State) : (forgetSavedIncr s).msg = s.msg := rfl
@[simp] theorem forgetSavedIncr_time (s : State) : (forgetSavedIncr s).time = s.time := rfl
@[simp] theorem forgetSavedIncr_rsp (s : State) : (forgetSavedIncr s).rsp = s.rsp := rfl
@[simp] theorem forgetSavedIncr_out (s : State) : (forgetSavedIncr s).out = s.out := rfl
@[simp] theorem forgetSavedIncr_freeIndex (s : State) :
    (forgetSavedIncr s).freeIndex = s.freeIndex + 1 := rfl

/-! ### A seeding (R90) -/

@[simp] theorem seedWith_seeded (v : SeedWord) (s : State) : (seedWith v s).seeded = true := rfl
@[simp] theorem seedWith_savedValid (v : SeedWord) (s : State) :
    (seedWith v s).savedValid = false := rfl
@[simp] theorem seedWith_seed (v : SeedWord) (s : State) : (seedWith v s).seed = v := rfl
@[simp] theorem seedWith_counter (v : SeedWord) (s : State) : (seedWith v s).counter = 0 := rfl
@[simp] theorem seedWith_saved (v : SeedWord) (s : State) :
    (seedWith v s).saved = Config.freeSaved s.freeIndex := rfl
@[simp] theorem seedWith_incr (v : SeedWord) (s : State) :
    (seedWith v s).incr = Config.freeIncr s.freeIndex := rfl
@[simp] theorem seedWith_cmd (v : SeedWord) (s : State) : (seedWith v s).cmd = s.cmd.tail := rfl
@[simp] theorem seedWith_msg (v : SeedWord) (s : State) : (seedWith v s).msg = s.msg := rfl
@[simp] theorem seedWith_time (v : SeedWord) (s : State) : (seedWith v s).time = s.time := rfl
@[simp] theorem seedWith_rsp (v : SeedWord) (s : State) :
    (seedWith v s).rsp = s.rsp ++ [rspRecord .ok 0] := rfl
@[simp] theorem seedWith_out (v : SeedWord) (s : State) : (seedWith v s).out = s.out := rfl
@[simp] theorem seedWith_freeIndex (v : SeedWord) (s : State) :
    (seedWith v s).freeIndex = s.freeIndex + 1 := rfl

/-! ### One item (R128) -/

@[simp] theorem pushOut_seeded (fmt : Bool) (d : Byte) (s : State) :
    (pushOut fmt d s).seeded = s.seeded := rfl
@[simp] theorem pushOut_savedValid (fmt : Bool) (d : Byte) (s : State) :
    (pushOut fmt d s).savedValid = s.savedValid := rfl
@[simp] theorem pushOut_seed (fmt : Bool) (d : Byte) (s : State) :
    (pushOut fmt d s).seed = s.seed := rfl
@[simp] theorem pushOut_counter (fmt : Bool) (d : Byte) (s : State) :
    (pushOut fmt d s).counter = s.counter := rfl
@[simp] theorem pushOut_saved (fmt : Bool) (d : Byte) (s : State) :
    (pushOut fmt d s).saved = s.saved := rfl
@[simp] theorem pushOut_incr (fmt : Bool) (d : Byte) (s : State) :
    (pushOut fmt d s).incr = s.incr := rfl
@[simp] theorem pushOut_cmd (fmt : Bool) (d : Byte) (s : State) :
    (pushOut fmt d s).cmd = s.cmd := rfl
@[simp] theorem pushOut_msg (fmt : Bool) (d : Byte) (s : State) :
    (pushOut fmt d s).msg = s.msg := rfl
@[simp] theorem pushOut_time (fmt : Bool) (d : Byte) (s : State) :
    (pushOut fmt d s).time = s.time := rfl
@[simp] theorem pushOut_rsp (fmt : Bool) (d : Byte) (s : State) :
    (pushOut fmt d s).rsp = s.rsp := rfl
@[simp] theorem pushOut_out (fmt : Bool) (d : Byte) (s : State) :
    (pushOut fmt d s).out = s.out ++ [outRecord fmt d] := rfl
@[simp] theorem pushOut_freeIndex (fmt : Bool) (d : Byte) (s : State) :
    (pushOut fmt d s).freeIndex = s.freeIndex := rfl

/-! ### The state part of a draw (R107) -/

@[simp] theorem advance_seeded (s : State) : (advance s).seeded = s.seeded := rfl
@[simp] theorem advance_savedValid (s : State) : (advance s).savedValid = s.savedValid := rfl
@[simp] theorem advance_seed (s : State) :
    (advance s).seed = lcgStep s.seed (crc32 (drawMessage s)) := rfl
@[simp] theorem advance_counter (s : State) : (advance s).counter = s.counter + 1 := rfl
@[simp] theorem advance_saved (s : State) : (advance s).saved = s.saved := rfl
@[simp] theorem advance_incr (s : State) : (advance s).incr = crc32 (drawMessage s) := rfl
@[simp] theorem advance_cmd (s : State) : (advance s).cmd = s.cmd := rfl
@[simp] theorem advance_msg (s : State) : (advance s).msg = s.msg := rfl
@[simp] theorem advance_time (s : State) : (advance s).time = s.time := rfl
@[simp] theorem advance_rsp (s : State) : (advance s).rsp = s.rsp := rfl
@[simp] theorem advance_out (s : State) : (advance s).out = s.out := rfl
@[simp] theorem advance_freeIndex (s : State) : (advance s).freeIndex = s.freeIndex := rfl

/-! ### The state after a fault (R142) -/

@[simp] theorem faultState_seeded (code : BitVec 4) (s : State) :
    (faultState code s).seeded = s.seeded := rfl
@[simp] theorem faultState_savedValid (code : BitVec 4) (s : State) :
    (faultState code s).savedValid = s.savedValid := rfl
@[simp] theorem faultState_seed (code : BitVec 4) (s : State) :
    (faultState code s).seed = s.seed := rfl
@[simp] theorem faultState_counter (code : BitVec 4) (s : State) :
    (faultState code s).counter = s.counter := rfl
@[simp] theorem faultState_saved (code : BitVec 4) (s : State) :
    (faultState code s).saved = s.saved := rfl
@[simp] theorem faultState_incr (code : BitVec 4) (s : State) :
    (faultState code s).incr = s.incr := rfl
@[simp] theorem faultState_cmd (code : BitVec 4) (s : State) :
    (faultState code s).cmd = s.cmd.tail := rfl
@[simp] theorem faultState_msg (code : BitVec 4) (s : State) :
    (faultState code s).msg = s.msg := rfl
@[simp] theorem faultState_time (code : BitVec 4) (s : State) :
    (faultState code s).time = s.time := rfl
@[simp] theorem faultState_rsp (code : BitVec 4) (s : State) :
    (faultState code s).rsp = s.rsp ++ [(0#32 ++ code : BitVec (32 + 4))] := rfl
@[simp] theorem faultState_out (code : BitVec 4) (s : State) :
    (faultState code s).out = s.out := rfl
@[simp] theorem faultState_freeIndex (code : BitVec 4) (s : State) :
    (faultState code s).freeIndex = s.freeIndex := rfl

/-! ### Records arriving on CMD (R31) -/

@[simp] theorem sendCmd_seeded (rs : List CmdRecord) (s : State) :
    (s.sendCmd rs).seeded = s.seeded := rfl
@[simp] theorem sendCmd_savedValid (rs : List CmdRecord) (s : State) :
    (s.sendCmd rs).savedValid = s.savedValid := rfl
@[simp] theorem sendCmd_seed (rs : List CmdRecord) (s : State) : (s.sendCmd rs).seed = s.seed := rfl
@[simp] theorem sendCmd_counter (rs : List CmdRecord) (s : State) :
    (s.sendCmd rs).counter = s.counter := rfl
@[simp] theorem sendCmd_saved (rs : List CmdRecord) (s : State) :
    (s.sendCmd rs).saved = s.saved := rfl
@[simp] theorem sendCmd_incr (rs : List CmdRecord) (s : State) : (s.sendCmd rs).incr = s.incr := rfl
@[simp] theorem sendCmd_cmd (rs : List CmdRecord) (s : State) :
    (s.sendCmd rs).cmd = s.cmd ++ rs := rfl
@[simp] theorem sendCmd_msg (rs : List CmdRecord) (s : State) : (s.sendCmd rs).msg = s.msg := rfl
@[simp] theorem sendCmd_time (rs : List CmdRecord) (s : State) : (s.sendCmd rs).time = s.time := rfl
@[simp] theorem sendCmd_rsp (rs : List CmdRecord) (s : State) : (s.sendCmd rs).rsp = s.rsp := rfl
@[simp] theorem sendCmd_out (rs : List CmdRecord) (s : State) : (s.sendCmd rs).out = s.out := rfl
@[simp] theorem sendCmd_freeIndex (rs : List CmdRecord) (s : State) :
    (s.sendCmd rs).freeIndex = s.freeIndex := rfl

/-! ### Bytes arriving on MSG (R31) -/

@[simp] theorem sendMsg_seeded (bs : List Byte) (s : State) :
    (s.sendMsg bs).seeded = s.seeded := rfl
@[simp] theorem sendMsg_savedValid (bs : List Byte) (s : State) :
    (s.sendMsg bs).savedValid = s.savedValid := rfl
@[simp] theorem sendMsg_seed (bs : List Byte) (s : State) : (s.sendMsg bs).seed = s.seed := rfl
@[simp] theorem sendMsg_counter (bs : List Byte) (s : State) :
    (s.sendMsg bs).counter = s.counter := rfl
@[simp] theorem sendMsg_saved (bs : List Byte) (s : State) : (s.sendMsg bs).saved = s.saved := rfl
@[simp] theorem sendMsg_incr (bs : List Byte) (s : State) : (s.sendMsg bs).incr = s.incr := rfl
@[simp] theorem sendMsg_cmd (bs : List Byte) (s : State) : (s.sendMsg bs).cmd = s.cmd := rfl
@[simp] theorem sendMsg_msg (bs : List Byte) (s : State) : (s.sendMsg bs).msg = s.msg ++ bs := rfl
@[simp] theorem sendMsg_time (bs : List Byte) (s : State) : (s.sendMsg bs).time = s.time := rfl
@[simp] theorem sendMsg_rsp (bs : List Byte) (s : State) : (s.sendMsg bs).rsp = s.rsp := rfl
@[simp] theorem sendMsg_out (bs : List Byte) (s : State) : (s.sendMsg bs).out = s.out := rfl
@[simp] theorem sendMsg_freeIndex (bs : List Byte) (s : State) :
    (s.sendMsg bs).freeIndex = s.freeIndex := rfl

/-! ### The TIME level (R33) -/

@[simp] theorem presentTime_seeded (ts : List TimeWord) (s : State) :
    (s.presentTime ts).seeded = s.seeded := rfl
@[simp] theorem presentTime_savedValid (ts : List TimeWord) (s : State) :
    (s.presentTime ts).savedValid = s.savedValid := rfl
@[simp] theorem presentTime_seed (ts : List TimeWord) (s : State) :
    (s.presentTime ts).seed = s.seed := rfl
@[simp] theorem presentTime_counter (ts : List TimeWord) (s : State) :
    (s.presentTime ts).counter = s.counter := rfl
@[simp] theorem presentTime_saved (ts : List TimeWord) (s : State) :
    (s.presentTime ts).saved = s.saved := rfl
@[simp] theorem presentTime_incr (ts : List TimeWord) (s : State) :
    (s.presentTime ts).incr = s.incr := rfl
@[simp] theorem presentTime_cmd (ts : List TimeWord) (s : State) :
    (s.presentTime ts).cmd = s.cmd := rfl
@[simp] theorem presentTime_msg (ts : List TimeWord) (s : State) :
    (s.presentTime ts).msg = s.msg := rfl
@[simp] theorem presentTime_time (ts : List TimeWord) (s : State) :
    (s.presentTime ts).time = s.time ++ ts := rfl
@[simp] theorem presentTime_rsp (ts : List TimeWord) (s : State) :
    (s.presentTime ts).rsp = s.rsp := rfl
@[simp] theorem presentTime_out (ts : List TimeWord) (s : State) :
    (s.presentTime ts).out = s.out := rfl
@[simp] theorem presentTime_freeIndex (ts : List TimeWord) (s : State) :
    (s.presentTime ts).freeIndex = s.freeIndex := rfl

/-! ### A step that waits (R157, R161) -/

@[simp] theorem wait_eq (s : State) : wait s = s := rfl

end Sys2Proof.Machine
end

