-- ==== Sys2Proof/Laws/Draw.lean ====
section
/-! SUPPORT. What each shared operation can do, said once: sampling TIME, popping MSG, the loop of a
byte draw, iterated draws. -/

namespace Sys2Proof.Machine

/-- The two ways a sample is taken (R33; log entry 3). -/
theorem sampleTime_cases (s : State) :
    (∃ t later, s.time = t :: later ∧ sampleTime s = (t, { s with time := later })) ∨
    (s.time = [] ∧
      sampleTime s = (Config.freeTime s.freeIndex, { s with freeIndex := s.freeIndex + 1 })) := by
  unfold sampleTime
  split
  · next t later h => exact .inl ⟨t, later, h, rfl⟩
  · next h => exact .inr ⟨h, rfl⟩

/-- Popping succeeds exactly when the bytes are there, and takes them in order (R94, R161). -/
theorem popBytes_eq (len : Nat) (s : State) :
    (len ≤ s.msg.length ∧
      popBytes len s = some (s.msg.take len, { s with msg := s.msg.drop len })) ∨
    (s.msg.length < len ∧ popBytes len s = none) := by
  by_cases h : len ≤ s.msg.length
  · exact .inl ⟨h, if_pos h⟩
  · exact .inr ⟨by omega, if_neg h⟩

theorem counterAtTop_iff (s : State) : counterAtTop s = true ↔ s.counter.toNat = counterMax := by
  simp [counterAtTop, counterMax, ← BitVec.toNat_inj]

theorem counter_le_max (s : State) : s.counter.toNat ≤ counterMax := by
  have := s.counter.isLt
  unfold counterMax
  omega

/-- A draw adds one to COUNTER, which cannot wrap below its greatest value (R108, R111). -/
theorem advance_counter_toNat (s : State) (h : s.counter.toNat ≠ counterMax) :
    (advance s).counter.toNat = s.counter.toNat + 1 := by
  have hle := counter_le_max s
  have e : (s.counter + 1).toNat = (s.counter.toNat + 1) % 2 ^ 64 := BitVec.toNat_add ..
  have hm : counterMax = 2 ^ 64 - 1 := rfl
  rw [advance_counter, e, Nat.mod_eq_of_lt (by omega)]

/-! ### Iterated draws -/

theorem iterated_succ (f : State → State) (n : Nat) (s : State) :
    iterated f (n + 1) s = f (iterated f n s) := by
  induction n generalizing s with
  | zero => rfl
  | succ n ih => exact ih (f s)

theorem iterated_add (f : State → State) (m n : Nat) (s : State) :
    iterated f (m + n) s = iterated f n (iterated f m s) := by
  induction m generalizing s with
  | zero => simp [iterated]
  | succ m ih => rw [Nat.succ_add]; exact ih (f s)

section iterated
variable (n : Nat) (s : State)

@[simp] theorem iterated_advance_seeded : (iterated advance n s).seeded = s.seeded := by
  induction n generalizing s with
  | zero => rfl
  | succ n ih => simp [iterated, ih]

@[simp] theorem iterated_advance_savedValid :
    (iterated advance n s).savedValid = s.savedValid := by
  induction n generalizing s with
  | zero => rfl
  | succ n ih => simp [iterated, ih]

@[simp] theorem iterated_advance_saved : (iterated advance n s).saved = s.saved := by
  induction n generalizing s with
  | zero => rfl
  | succ n ih => simp [iterated, ih]

@[simp] theorem iterated_advance_cmd : (iterated advance n s).cmd = s.cmd := by
  induction n generalizing s with
  | zero => rfl
  | succ n ih => simp [iterated, ih]

@[simp] theorem iterated_advance_msg : (iterated advance n s).msg = s.msg := by
  induction n generalizing s with
  | zero => rfl
  | succ n ih => simp [iterated, ih]

@[simp] theorem iterated_advance_time : (iterated advance n s).time = s.time := by
  induction n generalizing s with
  | zero => rfl
  | succ n ih => simp [iterated, ih]

@[simp] theorem iterated_advance_rsp : (iterated advance n s).rsp = s.rsp := by
  induction n generalizing s with
  | zero => rfl
  | succ n ih => simp [iterated, ih]

@[simp] theorem iterated_advance_out : (iterated advance n s).out = s.out := by
  induction n generalizing s with
  | zero => rfl
  | succ n ih => simp [iterated, ih]

@[simp] theorem iterated_advance_freeIndex :
    (iterated advance n s).freeIndex = s.freeIndex := by
  induction n generalizing s with
  | zero => rfl
  | succ n ih => simp [iterated, ih]

/-- Each draw adds one to COUNTER (R111). -/
theorem iterated_advance_counter :
    (iterated advance n s).counter = s.counter + BitVec.ofNat Config.ctrW n := by
  induction n generalizing s with
  | zero => simp [iterated]
  | succ n ih =>
    rw [iterated, ih, advance_counter, BitVec.add_assoc]
    congr 1
    apply BitVec.eq_of_toNat_eq
    simp [Nat.add_comm]

end iterated

/-- A draw reads SEED and COUNTER and nothing else (R107, R109). -/
theorem advance_congr (s t : State) (hs : t.seed = s.seed) (hc : t.counter = s.counter) :
    (advance t).seed = (advance s).seed ∧ (advance t).counter = (advance s).counter := by
  simp [drawMessage, hs, hc]

theorem iterated_advance_congr (n : Nat) (s t : State) (hs : t.seed = s.seed)
    (hc : t.counter = s.counter) : (iterated advance n t).seed = (iterated advance n s).seed ∧
      (iterated advance n t).counter = (iterated advance n s).counter := by
  induction n generalizing s t with
  | zero => exact ⟨hs, hc⟩
  | succ n ih => exact ih _ _ (advance_congr s t hs hc).1 (advance_congr s t hs hc).2

/-! ### The loop of a byte draw -/

/-- The item a draw from `s` makes: its SEED mapped to the range (R126, R128). -/
def itemOf (fmt : Bool) (range : Int × Int) (s : State) : OutRecord :=
  outRecord fmt (BitVec.ofInt 8 (outmap ((advance s).seed.setWidth 32).toNat range.1 range.2))

/-- The items of `n` draws from `s`, in draw order (R126). -/
def itemsOf (fmt : Bool) (range : Int × Int) (n : Nat) (s : State) : List OutRecord :=
  (List.range n).map fun k => itemOf fmt range (iterated advance k s)

theorem itemsOf_succ (fmt : Bool) (range : Int × Int) (n : Nat) (s : State) :
    itemsOf fmt range (n + 1) s = itemOf fmt range s :: itemsOf fmt range n (advance s) := by
  simp [itemsOf, List.range_succ_eq_map, List.map_map, Function.comp_def, iterated]

/-- A draw reads no port, so what was pushed before does not matter to it (R107). -/
theorem iterated_advance_out_update (o : List OutRecord) (n : Nat) (s : State) :
    iterated advance n { s with out := o } = { iterated advance n s with out := o } := by
  induction n generalizing s with
  | zero => rfl
  | succ n ih => exact ih (advance s)

theorem itemOf_out_update (fmt : Bool) (range : Int × Int) (o : List OutRecord) (s : State) :
    itemOf fmt range { s with out := o } = itemOf fmt range s := rfl

theorem itemsOf_out_update (fmt : Bool) (range : Int × Int) (o : List OutRecord) (n : Nat)
    (s : State) : itemsOf fmt range n { s with out := o } = itemsOf fmt range n s := by
  simp only [itemsOf, iterated_advance_out_update, itemOf_out_update]

/-- The items of a byte draw are made of SEED and COUNTER alone (R126, R127). -/
theorem itemsOf_congr (fmt : Bool) (range : Int × Int) (n : Nat) (s t : State)
    (hs : t.seed = s.seed) (hc : t.counter = s.counter) :
    itemsOf fmt range n t = itemsOf fmt range n s := by
  refine List.map_congr_left fun k _ => ?_
  obtain ⟨h, h'⟩ := iterated_advance_congr k s t hs hc
  rw [itemOf, itemOf, (advance_congr _ _ h h').1]

/-- Everything the loop of R126 can do: with `left` items to make it makes `n` of them, all of them
(OK), or as many as COUNTER admits (CounterOverflow, R130). -/
theorem emitItems_cases (fmt : Bool) (range : Int × Int) (left done : Nat) (s : State) :
    ∃ n, (emitItems fmt range left done s).count = done + n ∧
      (emitItems fmt range left done s).state =
        { iterated advance n s with out := s.out ++ itemsOf fmt range n s } ∧
      s.counter.toNat + n ≤ counterMax ∧
      ((n = left ∧ (emitItems fmt range left done s).code = .ok) ∨
        (n < left ∧ s.counter.toNat + n = counterMax ∧
          (emitItems fmt range left done s).code = .counterOverflow)) := by
  induction left generalizing done s with
  | zero =>
    refine ⟨0, rfl, ?_, ?_, .inl ⟨rfl, rfl⟩⟩
    · simp [emitItems, iterated, itemsOf]
    · have := s.counter.isLt
      simp only [counterMax]
      omega
  | succ left ih =>
    by_cases h : counterAtTop s = true
    · have hc := (counterAtTop_iff s).1 h
      refine ⟨0, ?_, ?_, ?_, .inr ⟨by omega, hc, ?_⟩⟩
      · simp [emitItems, h]
      · simp [emitItems, h, iterated, itemsOf]
      · omega
      · simp [emitItems, h]
    · have hc : s.counter.toNat ≠ counterMax := fun e => h ((counterAtTop_iff s).2 e)
      have hle := counter_le_max s
      have e : emitItems fmt range (left + 1) done s =
          emitItems fmt range left (done + 1)
            { advance s with out := s.out ++ [itemOf fmt range s] } := by
        rw [emitItems, if_neg h]
        rfl
      rw [e]
      obtain ⟨n, h1, h2, h3, h4⟩ :=
        ih (done + 1) { advance s with out := s.out ++ [itemOf fmt range s] }
      have hn : (advance s).counter.toNat = s.counter.toNat + 1 := by
        exact advance_counter_toNat s (by omega)
      refine ⟨n + 1, by omega, ?_, ?_, ?_⟩
      · rw [h2, iterated_advance_out_update, itemsOf_out_update, itemsOf_succ, iterated]
        simp
      · simp only at h3
        omega
      · simp only at h4
        rcases h4 with ⟨rfl, h4⟩ | ⟨h4, h5, h6⟩
        · exact .inl ⟨rfl, h4⟩
        · exact .inr ⟨by omega, by omega, h6⟩

end Sys2Proof.Machine
end

