-- ==== Sys2Proof/Laws/Responses.lean ====
section
/-! SUPPORT. The fields of the records the block emits (R45, R70, R128). -/

namespace Sys2Proof.Machine

/-- The CODE of a response put together from VALUE and CODE. -/
@[simp] theorem extract_code (v : Word) (c : BitVec 4) :
    BitVec.extractLsb' 0 4 (v ++ c : BitVec (32 + 4)) = c := by
  apply BitVec.eq_of_getLsbD_eq
  intro i h
  rw [BitVec.getLsbD_extractLsb', BitVec.getLsbD_append, Nat.zero_add, if_pos h,
    decide_eq_true h, Bool.true_and]

/-- The VALUE of a response put together from VALUE and CODE. -/
@[simp] theorem extract_value (v : Word) (c : BitVec 4) :
    BitVec.extractLsb' 4 32 (v ++ c : BitVec (32 + 4)) = v := by
  apply BitVec.eq_of_getLsbD_eq
  intro i h
  rw [BitVec.getLsbD_extractLsb', BitVec.getLsbD_append, if_neg (by omega),
    Nat.add_sub_cancel_left, decide_eq_true h, Bool.true_and]

/-- The DATA of an item put together from FMT and DATA. -/
@[simp] theorem extract_data (f : BitVec 1) (d : Byte) :
    BitVec.extractLsb' 0 8 (f ++ d : BitVec (1 + 8)) = d := by
  apply BitVec.eq_of_getLsbD_eq
  intro i h
  rw [BitVec.getLsbD_extractLsb', BitVec.getLsbD_append, Nat.zero_add, if_pos h,
    decide_eq_true h, Bool.true_and]

@[simp] theorem rspCode_rspRecord (c : Code) (v : Word) : rspCode (rspRecord c v) = codeBits c :=
  extract_code v (codeBits c)

@[simp] theorem rspValue_rspRecord (c : Code) (v : Word) : rspValue (rspRecord c v) = v :=
  extract_value v (codeBits c)

@[simp] theorem outData_outRecord (f : Bool) (d : Byte) : outData (outRecord f d) = d :=
  extract_data (BitVec.ofBool f) d

@[simp] theorem outFmt_outRecord (f : Bool) (d : Byte) : outFmt (outRecord f d) = f := by
  have h : outFmt (outRecord f d) = BitVec.getLsbD (w := 1 + 8) (BitVec.ofBool f ++ d) 8 := rfl
  rw [h, BitVec.getLsbD_append]
  simp

/-- The codes are those of R134: none is above 6. -/
theorem codeBits_le (c : Code) : (codeBits c).toNat ≤ 6 := by cases c <;> decide

/-- Different outcomes have different codes (R134). -/
theorem codeBits_injective (c d : Code) (h : codeBits c = codeBits d) : c = d := by
  cases c <;> cases d <;> first | rfl | (exfalso; revert h; decide)

/-- Taking a fault leaves the fault state of its code (R142). -/
theorem raise_eq_faultState (c : Code) (s : State) : raise c s = faultState (codeBits c) s := rfl

end Sys2Proof.Machine
end

