-- ==== Sys2Proof/Laws/Commands.lean ====
section
/-! SUPPORT. Everything a command and a step can do: one inversion lemma for each, from which a
statement about all commands follows without unfolding a meaning. -/

namespace Sys2Proof.Machine

/-- What the block's own part of a state becomes when it seeds with `v` from `s'`, the state after the
operands were read (R90). -/
theorem seedWith_eq (v : SeedWord) (s : State) : seedWith v s =
    { s with
      seed := v
      counter := 0
      savedValid := false
      seeded := true
      saved := Config.freeSaved s.freeIndex
      incr := Config.freeIncr s.freeIndex
      freeIndex := s.freeIndex + 1
      rsp := s.rsp ++ [rspRecord .ok 0]
      cmd := s.cmd.tail } := rfl

/-- The three things RANDBYTES can do on a seeded block, as one: `n` items and their draws, all of them
or as many as COUNTER admits (R126, R130). -/
theorem execRandBytes_cases (length : Nat) (dec rdbl : Bool) (s : State) :
    (s.seeded = false ∧ execRandBytes length dec rdbl s = .next (raise .notSeeded s)) ∨
    (s.seeded = true ∧ ∃ n c, execRandBytes length dec rdbl s =
        .next (respond c (BitVec.ofNat 32 n)
          { iterated advance n s with out := s.out ++ itemsOf dec (itemRange rdbl) n s }) ∧
      s.counter.toNat + n ≤ counterMax ∧
      ((n = length ∧ c = .ok) ∨
        (n < length ∧ s.counter.toNat + n = counterMax ∧ c = .counterOverflow))) := by
  unfold execRandBytes
  cases hs : s.seeded with
  | false => exact .inl ⟨rfl, by simp⟩
  | true =>
    obtain ⟨n, h1, h2, h3, h4⟩ := emitItems_cases dec (itemRange rdbl) length 0 s
    refine .inr ⟨rfl, n, (emitItems dec (itemRange rdbl) length 0 s).code, ?_, h3, h4⟩
    simp [h1, h2]

/-- RANDINT in every state (R106). -/
theorem execRandInt_cases (min max : Int) (s : State) :
    (s.seeded = false ∧ execRandInt min max s = .next (raise .notSeeded s)) ∨
    (s.seeded = true ∧ min > max ∧ execRandInt min max s = .next (raise .invalidRange s)) ∨
    (s.seeded = true ∧ min ≤ max ∧ s.counter.toNat = counterMax ∧
      execRandInt min max s = .next (raise .counterOverflow s)) ∨
    (s.seeded = true ∧ min ≤ max ∧ s.counter.toNat ≠ counterMax ∧
      execRandInt min max s = .next (respond .ok
        (BitVec.ofInt 32 (outmap ((advance s).seed.setWidth 32).toNat min max)) (advance s))) := by
  unfold execRandInt
  cases hs : s.seeded with
  | false => exact .inl ⟨rfl, by simp⟩
  | true =>
    by_cases hr : min > max
    · exact .inr (.inl ⟨rfl, hr, by simp [hr]⟩)
    · by_cases hc : counterAtTop s = true
      · exact .inr (.inr (.inl ⟨rfl, by omega, (counterAtTop_iff s).1 hc, by simp [hr, hc]⟩))
      · refine .inr (.inr (.inr ⟨rfl, by omega, fun e => hc ((counterAtTop_iff s).2 e), ?_⟩))
        simp [hr, hc, draw]

/-- Every command answers a next state (R144), and this is all it can be. -/
theorem exec_cases (i : Instr) (s t : State) (h : exec i s = .next t) :
    (i = .seedT ∧ t = seedWith (timeSeed (sampleTime s).1) (sampleTime s).2) ∨
    (∃ v, i = .seedI v ∧ t = seedWith (integerSeed v) s) ∨
    (∃ len, i = .seedS len ∧ s.msg.length < len ∧ t = s) ∨
    (∃ len, i = .seedS len ∧ len ≤ s.msg.length ∧
      t = seedWith (stringSeed (s.msg.take len)) { s with msg := s.msg.drop len }) ∨
    (∃ c, c ≠ .ok ∧ t = raise c s ∧
      ((i = .seedX ∧ c = .invalidSeed) ∨
       (s.seeded = false ∧ c = .notSeeded ∧ (i = .save ∨ i = .restore ∨ (∃ a b, i = .randInt a b) ∨
          ∃ n d r, i = .randBytes n d r)) ∨
       (i = .restore ∧ s.seeded = true ∧ s.savedValid = false ∧ c = .invalidState) ∨
       (∃ a b, i = .randInt a b ∧ s.seeded = true ∧ ((a > b ∧ c = .invalidRange) ∨
          (a ≤ b ∧ s.counter.toNat = counterMax ∧ c = .counterOverflow))))) ∨
    (i = .save ∧ s.seeded = true ∧ t = respond .ok 0 (flagsSaved { s with saved := s.seed })) ∨
    (i = .restore ∧ s.seeded = true ∧ s.savedValid = true ∧
      t = respond .ok 0 { s with seed := s.saved }) ∨
    (∃ a b, i = .randInt a b ∧ s.seeded = true ∧ a ≤ b ∧ s.counter.toNat ≠ counterMax ∧
      t = respond .ok (BitVec.ofInt 32 (outmap ((advance s).seed.setWidth 32).toNat a b))
        (advance s)) ∨
    (∃ length d r n c, i = .randBytes length d r ∧ s.seeded = true ∧
      s.counter.toNat + n ≤ counterMax ∧
      ((n = length ∧ c = .ok) ∨
        (n < length ∧ s.counter.toNat + n = counterMax ∧ c = .counterOverflow)) ∧
      t = respond c (BitVec.ofNat 32 n)
        { iterated advance n s with out := s.out ++ itemsOf d (itemRange r) n s }) := by
  cases i with
  | seedT =>
    cases h
    exact .inl ⟨rfl, rfl⟩
  | seedI v =>
    cases h
    exact .inr (.inl ⟨v, rfl, rfl⟩)
  | seedS len =>
    rcases popBytes_eq len s with ⟨hl, hp⟩ | ⟨hl, hp⟩ <;> simp only [exec, execSeedS, hp] at h <;>
      cases h
    · exact .inr (.inr (.inr (.inl ⟨len, rfl, hl, rfl⟩)))
    · exact .inr (.inr (.inl ⟨len, rfl, hl, rfl⟩))
  | seedX =>
    cases h
    exact .inr (.inr (.inr (.inr (.inl ⟨.invalidSeed, by decide, rfl, .inl ⟨rfl, rfl⟩⟩))))
  | save =>
    simp only [exec, execSave] at h
    split at h <;> cases h
    · next hs => exact .inr (.inr (.inr (.inr (.inr (.inl ⟨rfl, hs, rfl⟩)))))
    · next hs =>
      exact .inr (.inr (.inr (.inr (.inl
        ⟨.notSeeded, by decide, rfl, .inr (.inl ⟨by simpa using hs, rfl, .inl rfl⟩)⟩))))
  | restore =>
    simp only [exec, execRestore] at h
    split at h
    · next hs =>
      split at h <;> cases h
      · next hv => exact .inr (.inr (.inr (.inr (.inr (.inr (.inl ⟨rfl, hs, hv, rfl⟩))))))
      · next hv =>
        exact .inr (.inr (.inr (.inr (.inl ⟨.invalidState, by decide, rfl,
          .inr (.inr (.inl ⟨rfl, hs, by simpa using hv, rfl⟩))⟩))))
    · next hs =>
      cases h
      exact .inr (.inr (.inr (.inr (.inl
        ⟨.notSeeded, by decide, rfl, .inr (.inl ⟨by simpa using hs, rfl, .inr (.inl rfl)⟩)⟩))))
  | randInt a b =>
    simp only [exec] at h
    rcases execRandInt_cases a b s with ⟨hs, e⟩ | ⟨hs, hr, e⟩ | ⟨hs, hr, hc, e⟩ | ⟨hs, hr, hc, e⟩ <;>
      rw [e] at h <;> cases h
    · exact .inr (.inr (.inr (.inr (.inl ⟨.notSeeded, by decide, rfl,
        .inr (.inl ⟨hs, rfl, .inr (.inr (.inl ⟨a, b, rfl⟩))⟩)⟩))))
    · exact .inr (.inr (.inr (.inr (.inl ⟨.invalidRange, by decide, rfl,
        .inr (.inr (.inr ⟨a, b, rfl, hs, .inl ⟨hr, rfl⟩⟩))⟩))))
    · exact .inr (.inr (.inr (.inr (.inl ⟨.counterOverflow, by decide, rfl,
        .inr (.inr (.inr ⟨a, b, rfl, hs, .inr ⟨hr, hc, rfl⟩⟩))⟩))))
    · exact .inr (.inr (.inr (.inr (.inr (.inr (.inr (.inl ⟨a, b, rfl, hs, hr, hc, rfl⟩)))))))
  | randBytes length d r =>
    simp only [exec] at h
    rcases execRandBytes_cases length d r s with ⟨hs, e⟩ | ⟨hs, n, c, e, h3, h4⟩ <;> rw [e] at h <;>
      cases h
    · exact .inr (.inr (.inr (.inr (.inl ⟨.notSeeded, by decide, rfl,
        .inr (.inl ⟨hs, rfl, .inr (.inr (.inr ⟨length, d, r, rfl⟩))⟩)⟩))))
    · exact .inr (.inr (.inr (.inr (.inr (.inr (.inr (.inr
        ⟨length, d, r, n, c, rfl, hs, h3, h4, rfl⟩)))))))

/-- Everything a step can do: idle, answer an ILLEGAL record, or execute the command (R50, R61,
R157). -/
theorem step_cases (s : State) :
    (s.cmd = [] ∧ step s = .next s) ∨
    (∃ r rest e, s.cmd = r :: rest ∧ decode r = .error e ∧
      step s = .next (raise .illegalCommand s)) ∨
    (∃ r rest i, s.cmd = r :: rest ∧ decode r = .ok i ∧ step s = exec i s) := by
  cases hc : s.cmd with
  | nil => exact .inl ⟨rfl, by simp [step, fetch, hc]⟩
  | cons r rest =>
    cases hd : decode r with
    | error e => exact .inr (.inl ⟨r, rest, e, rfl, hd, by simp [step, fetch, hc, hd, illegalCommand]⟩)
    | ok i => exact .inr (.inr ⟨r, rest, i, rfl, hd, by simp [step, fetch, hc, hd]⟩)

/-- A run goes on from the next state of its first step. -/
theorem run_succ_of_step (n : Nat) (s t : State) (h : step s = .next t) :
    core.run (n + 1) s = core.run n t := by
  simp [Host.Core.run, core, h]

end Sys2Proof.Machine
end

