-- ==== Sys2Proof/Laws/Encoding.lean ====
section
/-! SUPPORT. The fields of an assembled record, and a record put together from its fields: the facts
about bit positions (R45, R55, R56) that every statement about encodings rests on. -/

namespace Sys2Proof

/-! ### Single bits -/

theorem record_getLsbD (opd : BitVec 64) (cw : BitVec 32) (i : Nat) :
    (record opd cw).getLsbD i = if i < 32 then cw.getLsbD i else opd.getLsbD (i - 32) :=
  BitVec.getLsbD_append

theorem halves_getLsbD (hi lo : BitVec 32) (i : Nat) :
    BitVec.getLsbD (w := 64) (hi ++ lo) i = if i < 32 then lo.getLsbD i else hi.getLsbD (i - 32) :=
  BitVec.getLsbD_append

theorem controlWord_getLsbD (op : BitVec 4) (kind : BitVec 2) (dec rdbl : Bool) (i : Nat) :
    (controlWord op kind dec rdbl).getLsbD i =
      if i < 4 then op.getLsbD i else if i < 6 then kind.getLsbD (i - 4)
      else if i = 6 then dec else if i = 7 then rdbl else false := by
  have h : (controlWord op kind dec rdbl).getLsbD i =
      ((0 : BitVec 24) ++ (BitVec.ofBool rdbl ++ (BitVec.ofBool dec ++ (kind ++ op)))).getLsbD i :=
    rfl
  rw [h]
  simp only [BitVec.getLsbD_append, BitVec.getLsbD_ofBool]
  split_ifs <;> simp_all <;> omega

section fields
variable (r : CmdRecord) (i : Nat)

theorem cwOf_getLsbD : (cwOf r).getLsbD i = (decide (i < 32) && r.getLsbD i) := by
  simp [cwOf, BitVec.getLsbD_extractLsb']

theorem opdOf_getLsbD : (opdOf r).getLsbD i = (decide (i < 64) && r.getLsbD (32 + i)) := by
  simp only [opdOf, BitVec.getLsbD_extractLsb']

theorem opOf_getLsbD : (opOf r).getLsbD i = (decide (i < 4) && r.getLsbD i) := by
  simp [opOf, BitVec.getLsbD_extractLsb']

theorem kindOf_getLsbD : (kindOf r).getLsbD i = (decide (i < 2) && r.getLsbD (4 + i)) := by
  simp only [kindOf, BitVec.getLsbD_extractLsb']

theorem rsvOf_getLsbD : (rsvOf r).getLsbD i = (decide (i < 24) && r.getLsbD (8 + i)) := by
  simp only [rsvOf, BitVec.getLsbD_extractLsb']

theorem opdLoOf_getLsbD : (opdLoOf r).getLsbD i = (decide (i < 32) && r.getLsbD (32 + i)) := by
  simp only [opdLoOf, BitVec.getLsbD_extractLsb']

theorem opdHiOf_getLsbD : (opdHiOf r).getLsbD i = (decide (i < 32) && r.getLsbD (64 + i)) := by
  simp only [opdHiOf, BitVec.getLsbD_extractLsb']

end fields

/-! ### The fields of an assembled record -/

section assembled
variable (opd : BitVec 64) (op : BitVec 4) (kind : BitVec 2) (dec rdbl : Bool)

@[simp] theorem rsvOf_record : rsvOf (record opd (controlWord op kind dec rdbl)) = 0 := by
  apply BitVec.eq_of_getLsbD_eq
  intro i h
  rw [rsvOf_getLsbD, record_getLsbD, if_pos (by omega), controlWord_getLsbD, if_neg (by omega),
    if_neg (by omega), if_neg (by omega), if_neg (by omega), Bool.and_false]
  exact (BitVec.getLsbD_zero ..).symm

@[simp] theorem opOf_record : opOf (record opd (controlWord op kind dec rdbl)) = op := by
  apply BitVec.eq_of_getLsbD_eq
  intro i h
  rw [opOf_getLsbD, record_getLsbD, if_pos (by omega), controlWord_getLsbD, if_pos h,
    decide_eq_true h, Bool.true_and]

@[simp] theorem kindOf_record : kindOf (record opd (controlWord op kind dec rdbl)) = kind := by
  apply BitVec.eq_of_getLsbD_eq
  intro i h
  rw [kindOf_getLsbD, record_getLsbD, if_pos (by omega), controlWord_getLsbD, if_neg (by omega),
    if_pos (by omega), decide_eq_true h, Bool.true_and, Nat.add_sub_cancel_left]

@[simp] theorem decOf_record : decOf (record opd (controlWord op kind dec rdbl)) = dec := by
  simp [decOf, record_getLsbD, controlWord_getLsbD, -BitVec.getLsbD_eq_getElem]

@[simp] theorem rdblOf_record : rdblOf (record opd (controlWord op kind dec rdbl)) = rdbl := by
  simp [rdblOf, record_getLsbD, controlWord_getLsbD, -BitVec.getLsbD_eq_getElem]

@[simp] theorem opdOf_record (cw : BitVec 32) : opdOf (record opd cw) = opd := by
  apply BitVec.eq_of_getLsbD_eq
  intro i h
  rw [opdOf_getLsbD, record_getLsbD, if_neg (by omega), decide_eq_true h, Bool.true_and,
    Nat.add_sub_cancel_left]

@[simp] theorem opdLoOf_record (hi lo cw : BitVec 32) : opdLoOf (record (hi ++ lo) cw) = lo := by
  apply BitVec.eq_of_getLsbD_eq
  intro i h
  rw [opdLoOf_getLsbD, record_getLsbD, if_neg (by omega), halves_getLsbD, if_pos (by omega),
    decide_eq_true h, Bool.true_and, Nat.add_sub_cancel_left]

@[simp] theorem opdHiOf_record (hi lo cw : BitVec 32) : opdHiOf (record (hi ++ lo) cw) = hi := by
  apply BitVec.eq_of_getLsbD_eq
  intro i h
  rw [opdHiOf_getLsbD, record_getLsbD, if_neg (by omega), halves_getLsbD, if_neg (by omega),
    decide_eq_true h, Bool.true_and, show 64 + i - 32 - 32 = i by omega]

end assembled

/-! ### A record from its fields -/

/-- A record is its two words (R45, R55). -/
theorem record_opdOf_cwOf (r : CmdRecord) : record (opdOf r) (cwOf r) = r := by
  apply BitVec.eq_of_getLsbD_eq
  intro i h
  simp only [record_getLsbD, opdOf_getLsbD, cwOf_getLsbD]
  split_ifs with hi
  · simp [hi]
  · simp [show i - 32 < 64 by omega, show 32 + (i - 32) = i by omega]

/-- OPD is its two halves (R57). -/
theorem opdOf_eq_halves (r : CmdRecord) : opdOf r = opdHiOf r ++ opdLoOf r := by
  apply BitVec.eq_of_getLsbD_eq
  intro i h
  rw [halves_getLsbD]
  simp only [opdOf_getLsbD, opdHiOf_getLsbD, opdLoOf_getLsbD]
  split_ifs with hi
  · simp [hi, h]
  · simp [h, show i - 32 < 32 by omega, show 64 + (i - 32) = 32 + i by omega]

/-- CW is its fields when RSV is 0 (R56). -/
theorem cwOf_eq_fields (r : CmdRecord) (hr : rsvOf r = 0) :
    cwOf r = controlWord (opOf r) (kindOf r) (decOf r) (rdblOf r) := by
  apply BitVec.eq_of_getLsbD_eq
  intro i h
  rw [controlWord_getLsbD]
  simp only [cwOf_getLsbD, opOf_getLsbD, kindOf_getLsbD, decOf, rdblOf]
  split_ifs with h1 h2 h3 h4
  · simp [h, h1]
  · simp [h, show i - 4 < 2 by omega, show 4 + (i - 4) = i by omega]
  · simp [h3, -BitVec.getLsbD_eq_getElem]
  · simp [h4, -BitVec.getLsbD_eq_getElem]
  · have hz := congrArg (fun v => v.getLsbD (i - 8)) hr
    simp only [rsvOf_getLsbD, show 8 + (i - 8) = i by omega] at hz
    simpa [h, show i - 8 < 24 by omega] using hz

/-! ### What the decoder can answer -/

theorem kind_eq_three (k : BitVec 2) (h0 : k ≠ 0) (h1 : k ≠ 1) (h2 : k ≠ 2) : k = 3 := by
  revert k
  decide

/-- Everything the decoder can accept, case by case as R60 lists it. -/
theorem decode_eq_ok_iff (r : CmdRecord) (i : Instr) : decode r = .ok i ↔
    rsvOf r = 0 ∧
    ((opOf r = 1 ∧ decOf r = false ∧ rdblOf r = false ∧ kindOf r = 0 ∧ opdOf r = 0 ∧ i = .seedT) ∨
     (opOf r = 1 ∧ decOf r = false ∧ rdblOf r = false ∧ kindOf r = 1 ∧
        i = .seedI (opdOf r).toInt) ∨
     (opOf r = 1 ∧ decOf r = false ∧ rdblOf r = false ∧ kindOf r = 2 ∧ opdHiOf r = 0 ∧
        i = .seedS (opdLoOf r).toNat) ∨
     (opOf r = 1 ∧ decOf r = false ∧ rdblOf r = false ∧ kindOf r = 3 ∧ i = .seedX) ∨
     (opOf r = 2 ∧ decOf r = false ∧ rdblOf r = false ∧ kindOf r = 0 ∧ opdOf r = 0 ∧ i = .save) ∨
     (opOf r = 3 ∧ decOf r = false ∧ rdblOf r = false ∧ kindOf r = 0 ∧ opdOf r = 0 ∧
        i = .restore) ∨
     (opOf r = 4 ∧ decOf r = false ∧ rdblOf r = false ∧ kindOf r = 0 ∧
        i = .randInt (opdLoOf r).toInt (opdHiOf r).toInt) ∨
     (opOf r = 5 ∧ kindOf r = 0 ∧ opdHiOf r = 0 ∧
        i = .randBytes (opdLoOf r).toNat (decOf r) (rdblOf r))) := by
  have hk := kind_eq_three (kindOf r)
  constructor
  · intro h
    unfold decode decodeSeed decodeRandBytes plainControl operandZero at h
    split_ifs at h <;> simp_all
  · rintro ⟨h, h'|h'|h'|h'|h'|h'|h'|h'⟩ <;>
      simp_all [decode, decodeSeed, decodeRandBytes, plainControl, operandZero]

/-! ### Masks -/

/-- Masking a concatenation masks its parts. -/
theorem append_and {m n : Nat} (a b : BitVec m) (c d : BitVec n) :
    (a ++ c) &&& (b ++ d) = (a &&& b) ++ (c &&& d) := by
  apply BitVec.eq_of_getLsbD_eq
  intro i _
  simp only [BitVec.getLsbD_and, BitVec.getLsbD_append]
  split_ifs <;> rfl

/-- Masking a record masks its two words. -/
theorem record_and (a b : BitVec 64) (c d : BitVec 32) :
    record a c &&& record b d = record (a &&& b) (c &&& d) :=
  append_and a b c d

/-- Two concatenations are equal exactly when their parts are. -/
theorem append_eq_append_iff {m n : Nat} (a b : BitVec m) (c d : BitVec n) :
    a ++ c = b ++ d ↔ a = b ∧ c = d := by
  constructor
  · intro h
    constructor <;> apply BitVec.eq_of_getLsbD_eq <;> intro i hi
    · have := congrArg (fun v => v.getLsbD (n + i)) h
      simpa [BitVec.getLsbD_append, -BitVec.getLsbD_eq_getElem] using this
    · have := congrArg (fun v => v.getLsbD i) h
      simpa [BitVec.getLsbD_append, hi, -BitVec.getLsbD_eq_getElem] using this
  · rintro ⟨rfl, rfl⟩
    rfl

/-! ### Operands of a well-formed command (R58) -/

theorem toInt_ofInt_of_fitsSigned (n : Nat) (v : Int) (hn : 0 < n) (h : fitsSigned n v = true) :
    (BitVec.ofInt n v).toInt = v := by
  have h' : -(2 : Int) ^ (n - 1) ≤ v ∧ v < 2 ^ (n - 1) := by simpa [fitsSigned] using h
  exact BitVec.toInt_ofInt_eq_self hn h'.1 h'.2

theorem toNat_ofNat_of_fitsUnsigned (n v : Nat) (h : fitsUnsigned n v = true) :
    (BitVec.ofNat n v).toNat = v := by
  have h' : v < 2 ^ n := by simpa [fitsUnsigned] using h
  simp [Nat.mod_eq_of_lt h']

end Sys2Proof
end

