-- ==== Sys2Proof/Laws/Mapper.lean ====
section
/-! SUPPORT. What the rounding of the output mapper can do, said once (R114). -/

namespace Sys2Proof.Machine

/-- A product below 2^53 is already exact (R114). -/
theorem rn53_of_lt (p : Nat) (h : p < 2 ^ 53) : rn53 p = p := by
  simp [rn53, significandBits]
  omega

/-- Above that, `p` is its top 53 bits `q` and the dropped bits `r`, and the rounded value is `q` or its
successor, whichever R114 says (R114). -/
theorem rn53_of_ge (p : Nat) (h : 2 ^ 53 ≤ p) : ∃ e q r, 1 ≤ e ∧ p = q * 2 ^ e + r ∧ r < 2 ^ e ∧
    2 ^ 52 ≤ q ∧ q < 2 ^ 53 ∧
    rn53 p = (if 2 * r > 2 ^ e ∨ (2 * r = 2 ^ e ∧ q % 2 = 1) then q + 1 else q) * 2 ^ e := by
  have hp : p ≠ 0 := by omega
  have h1 : 2 ^ p.log2 ≤ p := Nat.log2_self_le hp
  have h2 : p < 2 ^ (p.log2 + 1) := Nat.lt_log2_self
  have hl : 53 ≤ p.log2 := (Nat.le_log2 hp).2 h
  obtain ⟨k, hk⟩ : ∃ k, p.log2 = 53 + k := ⟨p.log2 - 53, by omega⟩
  have hdrop : bitlen p - significandBits = k + 1 := by
    simp only [bitlen, significandBits]
    omega
  refine ⟨k + 1, p / 2 ^ (k + 1), p % 2 ^ (k + 1), by omega, ?_, Nat.mod_lt _ (by positivity),
    ?_, ?_, ?_⟩
  · rw [Nat.mul_comm]
    exact (Nat.div_add_mod p _).symm
  · rw [Nat.le_div_iff_mul_le (by positivity), ← Nat.pow_add,
      show 52 + (k + 1) = p.log2 by omega]
    exact h1
  · rw [Nat.div_lt_iff_lt_mul (by positivity), ← Nat.pow_add,
      show 53 + (k + 1) = p.log2 + 1 by omega]
    exact h2
  · rw [rn53, if_neg (by simp only [significandBits]; omega)]
    simp only [hdrop, Nat.shiftLeft_eq, Nat.shiftRight_eq_div_pow, Nat.add_sub_cancel]
    have hhalf : 2 ^ (k + 1) = 2 * 2 ^ k := by rw [Nat.pow_succ, Nat.mul_comm]
    congr 1
    have hround : (p % 2 ^ (k + 1) > 2 ^ k ∨
          p % 2 ^ (k + 1) = 2 ^ k ∧ p / 2 ^ (k + 1) % 2 = 1) ↔
        (2 * (p % 2 ^ (k + 1)) > 2 ^ (k + 1) ∨
          2 * (p % 2 ^ (k + 1)) = 2 ^ (k + 1) ∧ p / 2 ^ (k + 1) % 2 = 1) := by
      generalize p / 2 ^ (k + 1) % 2 = a
      generalize p % 2 ^ (k + 1) = b
      omega
    simp only [hround]

/-- The mapper scales by an exact shift (R113). -/
theorem outmap_eq (s : Nat) (min max : Int) :
    outmap s min max = ((rn53 (s * span min max) / 2 ^ 32 : Nat) : Int) + min := by
  rw [outmap, Nat.shiftRight_eq_div_pow]

end Sys2Proof.Machine
end

