-- ==== Sys2Proof/Laws/Numerals.lean ====
section
/-! SUPPORT. The recursion of the decimal converter and of the checksum, said once (R81, R84). -/

namespace Sys2Proof.Machine

/-- The loop only prepends (R84). -/
theorem decLoop_append (fuel n : Nat) (ds : List Byte) :
    decLoop fuel n ds = decLoop fuel n [] ++ ds := by
  induction fuel generalizing n ds with
  | zero => rfl
  | succ fuel ih =>
    unfold decLoop
    split
    · rfl
    · rw [ih _ (digit (n % 10) :: ds), ih _ [digit (n % 10)], List.append_assoc,
        List.singleton_append]

/-- Turns beyond those needed change nothing (R84). -/
theorem decLoop_fuel (fuel fuel' n : Nat) (ds : List Byte) (h : n ≤ fuel) (h' : n ≤ fuel') :
    decLoop fuel n ds = decLoop fuel' n ds := by
  induction fuel generalizing fuel' n ds with
  | zero =>
    obtain rfl : n = 0 := by omega
    cases fuel' <;> simp [decLoop]
  | succ fuel ih =>
    by_cases hn : n = 0
    · subst hn
      cases fuel' <;> simp [decLoop]
    · cases fuel' with
      | zero => omega
      | succ fuel' => simp only [decLoop, if_neg hn, ih fuel' (n / 10) _ (by omega) (by omega)]

/-- A numeral of one digit (R84). -/
theorem dec_of_lt_ten (n : Nat) (h : n < 10) : dec n = [digit n] := by
  unfold dec
  split
  · next h0 => rw [h0]
  · next h0 =>
    cases n with
    | zero => exact absurd rfl h0
    | succ n =>
      rw [decLoop, if_neg h0, Nat.mod_eq_of_lt h, Nat.div_eq_of_lt h]
      cases n <;> simp [decLoop]

/-- The last digit comes last: a numeral is that of `n / 10` and one digit more (R84). -/
theorem dec_of_ge_ten (n : Nat) (h : 10 ≤ n) : dec n = dec (n / 10) ++ [digit (n % 10)] := by
  have h0 : n ≠ 0 := by omega
  have h1 : n / 10 ≠ 0 := by omega
  unfold dec
  rw [if_neg h0, if_neg h1]
  cases n with
  | zero => exact absurd rfl h0
  | succ n =>
    rw [decLoop, if_neg h0, decLoop_append,
      decLoop_fuel n ((n + 1) / 10) ((n + 1) / 10) [] (by omega) (Nat.le_refl _)]

/-- A digit's character is 0x30 more than its value (R84). -/
theorem digit_toNat (d : Nat) (h : d < 10) : (digit d).toNat = 0x30 + d := by
  simp [digit, digitZero]
  omega

/-- The register is carried from byte to byte (R85). -/
theorem crcBytes_append (c : Word) (xs ys : List Byte) :
    crcBytes c (xs ++ ys) = crcBytes (crcBytes c xs) ys := by
  simp [crcBytes, List.foldl_append]

/-- A turn of the register is linear (R81). -/
theorem crcBit_xor (a b : Word) : crcBit (a ^^^ b) = crcBit a ^^^ crcBit b := by
  have hs : (a ^^^ b) >>> 1 = (a >>> 1) ^^^ (b >>> 1) := BitVec.ushiftRight_xor_distrib a b 1
  unfold crcBit
  rw [BitVec.getLsbD_xor, hs]
  cases a.getLsbD 0 <;> cases b.getLsbD 0 <;> simp
  · ac_rfl
  · ac_rfl
  · rw [show a >>> 1 ^^^ crcPoly ^^^ (b >>> 1 ^^^ crcPoly) =
      a >>> 1 ^^^ b >>> 1 ^^^ (crcPoly ^^^ crcPoly) by ac_rfl]
    simp

/-- Any number of turns is linear (R81). -/
theorem crcBits_xor (n : Nat) (a b : Word) : crcBits n (a ^^^ b) = crcBits n a ^^^ crcBits n b := by
  induction n generalizing a b with
  | zero => rfl
  | succ n ih => rw [crcBits, crcBit_xor, ih]; rfl

end Sys2Proof.Machine
end

