-- ==== Sys2Proof/Laws/PerInstr.lean ====
section
/-! SUPPORT. A statement made per instruction: the encoding of every command selects its own row of
the table (R59), whatever its operands. -/

namespace Sys2Proof.Laws.EncodingSelectsItsRow

/-- The record of the command, masked by its row, is the row's pattern (R59). -/
def Statement (i : Instr) : Prop := encode i &&& (rowOf i).mask = (rowOf i).pattern

/-- A mask over CW alone forgets OPD. -/
theorem mask_cw (opd : BitVec 64) (cw : BitVec 32) :
    record opd cw &&& 0x0000000000000000FFFFFFFF#96 = record 0 (cw &&& 0xFFFFFFFF#32) := by
  have h : (0x0000000000000000FFFFFFFF#96 : CmdRecord) = record 0 0xFFFFFFFF#32 := by decide
  rw [h, record_and]
  congr 1
  exact BitVec.and_zero

/-- A mask over OPD[63:32] and CW forgets a length in OPD[31:0]. -/
theorem mask_length (lo cw m : BitVec 32) :
    record ((0 : BitVec 32) ++ lo) cw &&& record 0xFFFFFFFF00000000#64 m = record 0 (cw &&& m) := by
  rw [record_and]
  congr 1
  have h : (0xFFFFFFFF00000000#64 : BitVec 64) = (BitVec.allOnes 32 ++ (0 : BitVec 32)) := by decide
  rw [h]
  refine (append_and (0 : BitVec 32) (BitVec.allOnes 32) lo (0 : BitVec 32)).trans ?_
  rw [show lo &&& (0 : BitVec 32) = 0 from BitVec.and_zero]
  decide

theorem seedT : Statement .seedT := by unfold Statement; decide

theorem seedI (v : Int) : Statement (.seedI v) := by
  refine (mask_cw (BitVec.ofInt 64 v) (controlWord 1 1 false false)).trans ?_
  change _ = 0x000000000000000000000011#96
  decide

theorem seedS (len : Nat) : Statement (.seedS len) := by
  have h : (rowOf (.seedS len)).mask = record 0xFFFFFFFF00000000#64 0xFFFFFFFF#32 := rfl
  unfold Statement
  rw [h]
  refine (mask_length (BitVec.ofNat 32 len) (controlWord 1 2 false false) _).trans ?_
  change _ = 0x000000000000000000000021#96
  decide

theorem seedX : Statement .seedX := by unfold Statement; decide

theorem save : Statement .save := by unfold Statement; decide

theorem restore : Statement .restore := by unfold Statement; decide

theorem randInt (min max : Int) : Statement (.randInt min max) := by
  refine (mask_cw (BitVec.ofInt 32 max ++ BitVec.ofInt 32 min)
    (controlWord 4 0 false false)).trans ?_
  change _ = 0x000000000000000000000004#96
  decide

theorem randBytes (length : Nat) (dec rdbl : Bool) : Statement (.randBytes length dec rdbl) := by
  have h : (rowOf (.randBytes length dec rdbl)).mask =
      record 0xFFFFFFFF00000000#64 0xFFFFFF3F#32 := rfl
  unfold Statement
  rw [h]
  refine (mask_length (BitVec.ofNat 32 length) (controlWord 5 0 dec rdbl) _).trans ?_
  change _ = 0x000000000000000000000005#96
  clear h
  revert dec rdbl
  decide

end Sys2Proof.Laws.EncodingSelectsItsRow
end

