-- ==== Sys2Proof/Tests/Slice0.lean ====
section
/-! SUPPORT. Small tests, each expected value taken from a vector V<n> of 95_test_vectors.md or a rule,
and a witness for the hypotheses of every statement. -/

namespace Sys2Proof.Tests

open Sys2Proof.Machine

/-! ### Helpers -/

/-- A seeded block without a snapshot and with empty ports. -/
def block (seed counter : Nat) : State where
  seeded := true
  savedValid := false
  seed := BitVec.ofNat _ seed
  counter := BitVec.ofNat _ counter
  saved := 0
  incr := 0
  cmd := []
  msg := []
  time := []
  rsp := []
  out := []
  freeIndex := 1

/-- The block of V29e: seeded with 42, one draw, a snapshot. -/
def snapshotBlock : State :=
  { block 1036962894 1 with savedValid := true, saved := 1036962894, incr := 0x39A40E2C }

/-- An unseeded block with empty ports. -/
def blank : State := { block 7 9 with seeded := false }

/-- The state a command leaves has the property. -/
def leaves (o : Host.Outcome State Fault Refusal) (p : State → Bool) : Bool :=
  match o with
  | .next t => p t
  | _ => false

/-- SEED, COUNTER, INCR and the last response are these. -/
def holds (seed counter incr : Nat) (answer : RspRecord) (t : State) : Bool :=
  t.seed.toNat == seed && t.counter.toNat == counter && t.incr.toNat == incr &&
    t.rsp.getLast? == some answer

/-- The last response is this, and the registers, flags and other ports are those of `s`. -/
def faults (answer : RspRecord) (s t : State) : Bool :=
  t == { s with rsp := s.rsp ++ [answer], cmd := s.cmd.tail }

/-! ### Well-formedness: one ill-formed command for each check (R10, R11, R12, R75) -/

theorem test_wf_refuses_integer_seed_above : (Instr.seedI (2 ^ 63)).wellFormed = false := by decide
theorem test_wf_refuses_integer_seed_below : (Instr.seedI (-(2 ^ 63) - 1)).wellFormed = false := by
  decide
theorem test_wf_refuses_string_length : (Instr.seedS (2 ^ 32)).wellFormed = false := by decide
theorem test_wf_refuses_min : (Instr.randInt (-(2 ^ 31) - 1) 0).wellFormed = false := by decide
theorem test_wf_refuses_max : (Instr.randInt 0 (2 ^ 31)).wellFormed = false := by decide
theorem test_wf_refuses_length : (Instr.randBytes (2 ^ 32) false false).wellFormed = false := by
  decide

/-! ### Decoding: records written out field by field from R56 and R57 -/

/-- OPD[63:32], OPD[31:0], RSV, RDBL, DEC, KIND, OP. -/
def bits (hi lo : BitVec 32) (rsv : BitVec 24) (rdbl dec : BitVec 1) (kind : BitVec 2)
    (op : BitVec 4) : CmdRecord :=
  hi ++ lo ++ rsv ++ rdbl ++ dec ++ kind ++ op

theorem test_decode_seedT : decode (bits 0 0 0 0 0 0b00 0b0001) = .ok .seedT := by decide
theorem test_decode_seedI :
    decode (bits 0xFFFFFFFF 0xFFFFFFD6 0 0 0 0b01 0b0001) = .ok (.seedI (-42)) := by decide
theorem test_decode_seedS : decode (bits 0 4 0 0 0 0b10 0b0001) = .ok (.seedS 4) := by decide
theorem test_decode_seedX :
    decode (bits 0xDEADBEEF 0x0BADF00D 0 0 0 0b11 0b0001) = .ok .seedX := by decide
theorem test_decode_save : decode (bits 0 0 0 0 0 0b00 0b0010) = .ok .save := by decide
theorem test_decode_restore : decode (bits 0 0 0 0 0 0b00 0b0011) = .ok .restore := by decide
theorem test_decode_randInt :
    decode (bits 5 0xFFFFFFFB 0 0 0 0b00 0b0100) = .ok (.randInt (-5) 5) := by decide
theorem test_decode_randBytes_decimal :
    decode (bits 0 5 0 0 1 0b00 0b0101) = .ok (.randBytes 5 true false) := by decide
theorem test_decode_randBytes_readable :
    decode (bits 0 8 0 1 0 0b00 0b0101) = .ok (.randBytes 8 false true) := by decide

/-- The host's entry reads the table's words (R59). -/
theorem test_decodeTableWord :
    decodeTableWord 96 0x000000060000000100000004 = some (.randInt 1 6) ∧
    decodeTableWord 96 0x000000000000000000000000 = none := by decide

/-- V85 to V98: every record that must be ILLEGAL. -/
theorem test_decode_illegal :
    decodeTableWord 96 0 = none ∧
    decodeTableWord 96 0xFFFFFFFFFFFFFFFFFFFFFFFF = none ∧
    decodeTableWord 96 6 = none ∧
    decodeTableWord 96 15 = none ∧
    decodeTableWord 96 0x104 = none ∧
    decodeTableWord 96 0x000000FF0000000000000014 = none ∧
    decodeTableWord 96 0x000000FF0000000000000044 = none ∧
    decodeTableWord 96 0x000000000000000100000002 = none ∧
    decodeTableWord 96 0x12 = none ∧
    decodeTableWord 96 0x000000000000000100000001 = none ∧
    decodeTableWord 96 0x000000010000000400000021 = none ∧
    decodeTableWord 96 0x41 = none ∧
    decodeTableWord 96 0x000000010000000500000005 = none ∧
    decodeTableWord 96 0x000000000000000500000015 = none := by decide

/-- V101 to V104: the extreme operands. -/
theorem test_decode_extremes :
    decode 0x800000007FFFFFFF00000004#96 = .ok (.randInt 2147483647 (-2147483648)) ∧
    decode 0x7FFFFFFF8000000000000004#96 = .ok (.randInt (-2147483648) 2147483647) ∧
    decode 0x00000000FFFFFFFF00000005#96 = .ok (.randBytes 4294967295 false false) ∧
    decode 0x0000000000000003000000C5#96 = .ok (.randBytes 3 true true) := by decide

/-! ### The pure functions (V1 to V19, V41 to V69) -/

theorem test_crc_vectors :
    crc32 [0x30] = 0xF4DBDF21#32 ∧ crc32 [0x54, 0x65, 0x73, 0x74] = 0x784DD132#32 ∧
    crc32 [0x34, 0x32] = 0x3224B088#32 ∧ crc32 [0xC3, 0xA9] = 0x0E048D3E#32 ∧
    crc32 [0x31, 0x31, 0x31, 0x31, 0x31] = 0xA0DE71C0#32 := by decide +kernel

theorem test_dec_vectors :
    dec 0 = [0x30] ∧ dec 7 = [0x37] ∧ dec 42 = [0x34, 0x32] ∧
    dec 4294967295 = [0x34, 0x32, 0x39, 0x34, 0x39, 0x36, 0x37, 0x32, 0x39, 0x35] := by decide +kernel

/-- V41 to V44: where the rounding matters. -/
theorem test_outmap_rounds :
    outmap 0x3DCECC4E 0 617240168 = 149024453 ∧
    outmap 0x3DCECC4E (-2147483648) (-1530243480) = -1998459195 ∧
    outmap 0x5D58C705 0 11145778 = 4064151 ∧ outmap 0x58F92DEB 0 7957820 = 2765757 + 1 := by
  decide +kernel

/-- V45, V49, V53, V54, V60, V66, V69. -/
theorem test_outmap_corners :
    outmap 0xFFFFFFFF (-2147483648) 2147483647 = 2147483647 ∧ outmap 0 (-7) 9 = -7 ∧
    outmap 0x55555555 0 2 = 0 ∧ outmap 0x55555556 0 2 = 1 ∧
    outmap 0xFFFFFFFF (-2147483648) 2147483646 = 2147483646 ∧
    outmap 0x3DCECC4E (-5) 5 = -3 ∧ outmap 0xFFFFFFFF 0 2097152 = 2097152 := by decide +kernel

/-! ### Commands -/

/-- V29c: a time of more than 32 bits is not reduced. -/
theorem test_seedT : leaves (exec .seedT { snapshotBlock with time := [4294967301, 5] }) (fun t =>
    t.seed == 4294967301 && t.counter == 0 && t.seeded && !t.savedValid && t.time == [5] &&
      t.rsp == [0]) = true := by decide +kernel

/-- V21, V25: the absolute value, at the most negative operand too. -/
theorem test_seedI : leaves (exec (.seedI (-42)) blank) (fun t =>
    t.seed == 42 && t.counter == 0 && t.seeded) = true ∧
    leaves (exec (.seedI (-9223372036854775808)) snapshotBlock) (fun t =>
      t.seed == 9223372036854775808 && !t.savedValid) = true := by decide +kernel

/-- V26: the bytes after the string stay on MSG. -/
theorem test_seedS : leaves (exec (.seedS 4) { blank with msg := [0x74, 0x65, 0x73, 0x74, 9] })
    (fun t => t.seed == 3632233996 && t.seeded && t.msg == [9]) = true := by decide +kernel

/-- R161: with a byte missing nothing happens. -/
theorem test_seedS_waits : leaves (exec (.seedS 5) { snapshotBlock with msg := [0x74, 0x65] })
    (fun t => t == { snapshotBlock with msg := [0x74, 0x65] }) = true := by decide +kernel

/-- V116. -/
theorem test_seedX : leaves (exec .seedX snapshotBlock) (faults 0x000000001#36 snapshotBlock) = true := by
  decide +kernel

/-- V35a, V106. -/
theorem test_save :
    leaves (exec .save { snapshotBlock with saved := 42 }) (fun t =>
      t.saved == 1036962894 && t.savedValid && t.counter == 1 && t.rsp == [0]) = true ∧
    leaves (exec .save blank) (faults 0x000000005#36 blank) = true := by decide +kernel

/-- V33 after the RESTORE, V114. -/
theorem test_restore :
    leaves (exec .restore { snapshotBlock with seed := 2791429517, counter := 4 })
      (holds 1036962894 4 0x39A40E2C 0x000000000#36) = true ∧
    leaves (exec .restore (block 42 0)) (faults 0x000000002#36 (block 42 0)) = true := by
  decide +kernel

/-- V24: the first draw takes the digits of the whole seed; V33: the last draw. -/
theorem test_randInt :
    leaves (exec (.randInt 0 255) (block 4294967338 0)) (holds 362483626 1 0x11705188 0x000000150#36) =
      true ∧
    leaves (exec (.randInt 0 255) (block 1036962894 4)) (holds 2247561679 5 0x09719DD9 0x000000850#36) =
      true := by decide +kernel

/-- V79, V82, V109, V117. -/
theorem test_randInt_priority :
    leaves (exec (.randInt 0 255) (block 42 (2 ^ 64 - 1)))
      (faults 0x000000006#36 (block 42 (2 ^ 64 - 1))) = true ∧
    leaves (exec (.randInt 5 (-5)) (block 42 (2 ^ 64 - 1)))
      (faults 0x000000003#36 (block 42 (2 ^ 64 - 1))) = true ∧
    leaves (exec (.randInt 5 (-5)) blank) (faults 0x000000005#36 blank) = true ∧
    leaves (exec (.randInt (-5) 5) (block 42 0)) (holds 1036962894 1 0x39A40E2C 0xFFFFFFFD0#36) =
      true := by decide +kernel

/-- V70, V72. -/
theorem test_randBytes :
    leaves (exec (.randBytes 5 true false) (block 42 0)) (fun t =>
      t.out == [0x13D, 0x15E, 0x1E6, 0x1A6, 0x100] &&
        holds 3780976 5 0xB766AB47 0x000000050#36 t) = true ∧
    leaves (exec (.randBytes 5 false true) (block 42 0)) (fun t =>
      t.out == [54, 66, 117, 93, 32]) = true := by decide +kernel

/-- V81, V83. -/
theorem test_randBytes_overflow :
    leaves (exec (.randBytes 5 true false) (block 42 18446744073709551613)) (fun t =>
      t.out == [0x11A, 0x138] && holds 952973650 18446744073709551615 0x6F68F73E 0x000000026#36 t) =
      true ∧
    leaves (exec (.randBytes 0 false false) (block 42 (2 ^ 64 - 1)))
      (faults 0x000000000#36 (block 42 (2 ^ 64 - 1))) = true := by decide +kernel

/-- V110, V115: an ILLEGAL record, before any other fault. -/
theorem test_step_illegal :
    leaves (step { blank with cmd := [0x104#96, 2] }) (faults 4#36 { blank with cmd := [0x104#96, 2] }) =
      true := by decide +kernel

/-- R75, R76: a string seed is one record and its bytes; a short form fills in its defaults; an operand
outside its range is no command. -/
theorem test_assemble :
    assemble (.seed (.bytes [0x34, 0x32])) blank =
      some { blank with cmd := [0x000000000000000200000021#96], msg := [0x34, 0x32] } ∧
    assemble .randIntDefault blank = some { blank with cmd := [0x000000FF0000000000000004#96] } ∧
    assemble (.randIntFrom (2 ^ 31)) blank = none := by decide +kernel

/-- The host's fetch word runs as the very next step. -/
theorem test_withFetchWord :
    step (State.reset.withFetchWord 96 0x000000060000000100000004) =
      exec (.randInt 1 6) (State.reset.withFetchWord 96 0x000000060000000100000004) := rfl

/-! ### Witnesses: states and operands that meet the hypotheses of each statement -/

/-- DecodeOfEncodeIsTheCommand, at the ends of every operand's range. -/
theorem witness_wellFormed : ∀ i ∈ [Instr.seedT, .seedI (-(2 ^ 63)), .seedI (2 ^ 63 - 1), .seedS 0,
    .seedS (2 ^ 32 - 1), .seedX, .save, .restore, .randInt (-(2 ^ 31)) (2 ^ 31 - 1),
    .randInt (2 ^ 31 - 1) (-(2 ^ 31)), .randBytes 0 false false, .randBytes (2 ^ 32 - 1) true true],
    i.wellFormed = true ∧ decode (encode i) = .ok i := by decide

/-- RecordOfACommandIsItsEncoding, DecodedCommandsAreInRange. -/
theorem witness_decoded :
    decode 0x00000005FFFFFFFB00000004#96 = .ok (.randInt (-5) 5) ∧ Instr.randInt (-5) 5 ≠ .seedX := by
  decide

/-- DecodingSelectsTheTableRow: a row of the table, a record that selects it and one that does not. -/
theorem witness_row : rowOf .save ∈ opcodeTable ∧ (rowOf .save).selectedBy 2 = true ∧
    (rowOf .save).selectedBy 3 = false := by decide

/-- IllegalRecordsFaultAndChangeNothing: a state at an ILLEGAL record. -/
theorem witness_illegal : ∃ (s : State) (r : CmdRecord) (rest : List CmdRecord) (e : Reject),
    s.cmd = r :: rest ∧ decode r = .error e :=
  ⟨{ blank with cmd := [0] }, 0, [], .reservedOp, rfl, by decide⟩

/-- ShortFormsExpandToTheirCommands: a NEW line that assembles, and a line that does not. -/
theorem witness_assemble : (∃ t, assemble (.new .absent) snapshotBlock = some t) ∧
    (lineCommand (.randIntFrom (2 ^ 31))).wellFormed = false := ⟨⟨_, rfl⟩, by decide⟩

/-- StepRunsTheDecodedCommand: a state at a command, and an idle one. -/
theorem witness_step : (∃ (s : State) (r : CmdRecord) (rest : List CmdRecord) (i : Instr),
    s.cmd = r :: rest ∧ decode r = .ok i) ∧ blank.cmd = [] :=
  ⟨⟨{ blank with cmd := [2] }, 2, [], .save, rfl, by decide⟩, rfl⟩

/-- NoCommandStopsTheBlock: a SEED.S with exactly its bytes on MSG. -/
theorem witness_bytes_there : 2 ≤ ({ blank with msg := [1, 2] } : State).msg.length := by decide

/-- EachRecordGetsExactlyOneResponse, both clauses: a block that waits for its last byte, and one that
does not wait. -/
theorem witness_one_response :
    (waitsForBytes { blank with cmd := [0x000000000000000200000021#96], msg := [1] } ∧
      ∃ t, step { blank with cmd := [0x000000000000000200000021#96], msg := [1] } = .next t) ∧
    (¬ waitsForBytes { blank with cmd := [0x000000000000000200000021#96], msg := [1, 2] } ∧
      ∃ t, step { blank with cmd := [0x000000000000000200000021#96], msg := [1, 2] } = .next t) := by
  have hd : decode 0x000000000000000200000021#96 = .ok (.seedS 2) := by decide
  refine ⟨⟨⟨_, _, 2, rfl, hd, by decide⟩, ⟨_, rfl⟩⟩, ⟨?_, ⟨_, rfl⟩⟩⟩
  rintro ⟨r, rest, len, hc, hl, hm⟩
  cases hc
  rw [hd] at hl
  cases hl
  exact absurd hm (by decide)

/-- TheFirstFaultInOrderIsReported: a record on CMD, no wait, a next state; and a state for each of the
seven codes. -/
theorem witness_codes :
    (¬ waitsForBytes { blank with cmd := [2] } ∧ ∃ t, step { blank with cmd := [2] } = .next t) ∧
    reportedCode blank 0x11 = 0 ∧ reportedCode blank 0x31 = 1 ∧ reportedCode (block 42 0) 3 = 2 ∧
    reportedCode (block 42 0) 0xFFFFFFFB0000000500000004#96 = 3 ∧ reportedCode blank 0 = 4 ∧
    reportedCode blank 3 = 5 ∧ reportedCode (block 42 (2 ^ 64 - 1)) 4 = 6 ∧
    reportedCode (block 42 (2 ^ 64 - 2)) 0x000000000000000100000005#96 = 0 ∧
    reportedCode (block 42 (2 ^ 64 - 2)) 0x000000000000000200000005#96 = 6 := by
  refine ⟨⟨?_, ⟨_, rfl⟩⟩, by decide⟩
  rintro ⟨r, rest, len, hc, hl, -⟩
  cases hc
  exact absurd hl (by rw [show decode 2 = .ok .save by decide]; simp)

/-- FaultsChangeNothingElse, both outcomes: a fault that changes nothing, and a RANDBYTES stopped after
one item. -/
theorem witness_faults :
    (∃ t, step { blank with cmd := [2] } = .next t ∧
      t.rsp = ({ blank with cmd := [2] } : State).rsp ++ [5#36]) ∧
    leaves (step { block 42 (2 ^ 64 - 2) with cmd := [0x000000000000000200000005#96] }) (fun t =>
      t.rsp == [0x000000016#36] && t.out.length == 1) = true :=
  ⟨⟨_, rfl, rfl⟩, by decide +kernel⟩

/-- CommandsWriteOnlyWhatTheAccessTableSays: every command answers a next state somewhere. -/
theorem witness_next : ∀ i ∈ [Instr.seedT, .seedI 1, .seedS 0, .seedX, .save, .restore, .randInt 0 1,
    .randBytes 1 false false], leaves (exec i snapshotBlock) (fun _ => true) = true := by
  decide +kernel

/-- EveryStepKeepsTheListedCodes: a state with a response, and its next state. -/
theorem witness_codesListed : codesListed { blank with rsp := [6#36] } ∧
    ∃ t, step { blank with rsp := [6#36], cmd := [2] } = .next t := by
  refine ⟨?_, ⟨_, rfl⟩⟩
  intro r hr
  obtain rfl : r = 6#36 := by simpa using hr
  decide

/-- IntegerSeedingLoadsTheMagnitude, at both ends of the operand's range. -/
theorem witness_integer_seed : (Instr.seedI (-(2 ^ 63))).wellFormed = true ∧
    (Instr.seedI (2 ^ 63 - 1)).wellFormed = true := by decide

/-- StringSeedingLoadsTheChecksum: the bytes and a later one on MSG; no bytes at all. -/
theorem witness_string_seed :
    ({ blank with msg := [0x74, 0x65, 9] } : State).msg = [0x74, 0x65] ++ [9] ∧
    blank.msg = [] ++ [] := by decide

/-- StringSeedingWaitsForItsBytes: one byte short, and exactly enough with the bytes sent. -/
theorem witness_waits : ({ blank with msg := [1] } : State).msg.length < 2 ∧
    2 ≤ ({ blank with msg := [1] } : State).msg.length + [(2 : Byte)].length := by decide

/-- OnlyOtherSeedKindsAreInvalid: another command that answers, and a seeding. -/
theorem witness_other_command : Instr.save ≠ .seedX ∧
    (∃ t x, exec .save blank = .next t ∧ t.rsp = blank.rsp ++ [x]) ∧
    ∃ t x, exec (.seedI 42) blank = .next t ∧ t.rsp = blank.rsp ++ [x] :=
  ⟨by decide, ⟨_, _, rfl, rfl⟩, _, _, rfl, rfl⟩

/-- A block about to run the record `r` and then RANDINT 0, 0. -/
def replayBlock (s : State) (r : CmdRecord) (samples : List TimeWord) : State :=
  { s with cmd := [r, 4], msg := [8], time := samples }

/-- SeedingMakesReplayExact: two blocks with different registers, the same records, bytes and samples,
for each of the three seedings, with exactly the samples its records need. -/
theorem witness_replay : ∀ p ∈ [((1 : CmdRecord), Instr.seedT, [(5 : TimeWord)]),
      (0x000000000000002A00000011#96, .seedI 42, []), (0x000000000000000100000021#96, .seedS 1, [])],
    ∃ s₁ s₂ : State, s₁.cmd = p.1 :: [4] ∧ s₂.cmd = s₁.cmd ∧ s₂.msg = s₁.msg ∧ s₂.time = s₁.time ∧
      timeSeedings s₁.cmd ≤ s₁.time.length ∧ decode p.1 = .ok p.2.1 ∧ s₁.seed ≠ s₂.seed ∧
      (p.2.1 = .seedT ∨ (∃ v, p.2.1 = .seedI v) ∨ ∃ len, p.2.1 = .seedS len) := by
  intro p hp
  refine ⟨replayBlock snapshotBlock p.1 p.2.2, replayBlock (block 3 3) p.1 p.2.2, rfl, rfl, rfl, rfl, ?_⟩
  simp only [List.mem_cons, List.not_mem_nil, or_false] at hp
  rcases hp with rfl | rfl | rfl
  · exact ⟨by decide, by decide, by decide, .inl rfl⟩
  · exact ⟨by decide, by decide, by decide, .inr (.inl ⟨42, rfl⟩)⟩
  · exact ⟨by decide, by decide, by decide, .inr (.inr ⟨1, rfl⟩)⟩

/-- IndistinguishableBlocksStaySo: two unseeded blocks with different registers, at a SEED.T with the one
sample it needs; two seeded blocks that differ in INCR, and in SAVED without a snapshot. -/
theorem witness_indistinguishable :
    (Indistinguishable (replayBlock blank 1 [5])
        (replayBlock { block 3 3 with seeded := false } 1 [5]) ∧
      blank.seed ≠ (block 3 3).seed) ∧
    Indistinguishable (replayBlock (block 42 0) 3 [])
      (replayBlock { block 42 0 with saved := 7, incr := 8 } 3 []) :=
  ⟨⟨⟨rfl, rfl, by decide, by decide, by decide, rfl, rfl, rfl, by decide⟩, by decide⟩,
    ⟨rfl, rfl, by decide, by decide, by decide, rfl, rfl, rfl, by decide⟩⟩

/-- SaveCopiesTheSeed, RestoreRewindsOnlyTheSeed, SaveThenRestoreChangesOnlyTheSnapshot: a seeded block
with a snapshot, and the next states. -/
theorem witness_snapshot : snapshotBlock.seeded = true ∧ snapshotBlock.savedValid = true ∧
    (∃ t u, exec .save snapshotBlock = .next t ∧ exec .restore t = .next u) ∧
    ∃ t u, exec .restore snapshotBlock = .next t ∧ exec .restore t = .next u :=
  ⟨rfl, rfl, ⟨_, _, rfl, rfl⟩, ⟨_, _, rfl, rfl⟩⟩

/-- RestoreWithoutASnapshotIsInvalid: a seeded block without a snapshot; a seeding of each kind; a step
that makes a snapshot. -/
theorem witness_no_snapshot : (block 42 0).seeded = true ∧ (block 42 0).savedValid = false ∧
    (∃ t, exec .seedT snapshotBlock = .next t) ∧ (∃ t, exec (.seedI 1) snapshotBlock = .next t) ∧
    (0 ≤ snapshotBlock.msg.length ∧ ∃ t, exec (.seedS 0) snapshotBlock = .next t) ∧
    ∃ t, exec .save (block 42 0) = .next t ∧ t.savedValid = true :=
  ⟨rfl, rfl, ⟨_, rfl⟩, ⟨_, rfl⟩, ⟨by decide, ⟨_, rfl⟩⟩, ⟨_, rfl, rfl⟩⟩

/-- DrawAfterRestoreKeepsCounting: a snapshot, a draw left, and both next states. -/
theorem witness_draw_after_restore : snapshotBlock.seeded = true ∧ snapshotBlock.savedValid = true ∧
    (0 : Int) ≤ 255 ∧ snapshotBlock.counter.toNat < counterMax ∧
    ∃ t u, exec .restore snapshotBlock = .next t ∧ exec (.randInt 0 255) t = .next u :=
  ⟨rfl, rfl, by decide, by decide, ⟨_, _, rfl, rfl⟩⟩

/-- SeedingDiscardsTheSnapshot: each of the three seedings, SEED.S with exactly its bytes on MSG. -/
theorem witness_discard : ∃ t, exec .save { snapshotBlock with msg := [8] } = .next t ∧
    (∃ u, exec .seedT t = .next u) ∧ (∃ u, exec (.seedI 7) t = .next u) ∧
    1 ≤ t.msg.length ∧ ∃ u, exec (.seedS 1) t = .next u :=
  ⟨_, rfl, ⟨_, rfl⟩, ⟨_, rfl⟩, by decide, _, rfl⟩

/-- RandIntPerformsOneDraw: the widest range and the last draw COUNTER admits. -/
theorem witness_randInt : (Instr.randInt (-(2 ^ 31)) (2 ^ 31 - 1)).wellFormed = true ∧
    (block 42 (2 ^ 64 - 2)).seeded = true ∧ (-(2 ^ 31) : Int) ≤ 2 ^ 31 - 1 ∧
    (block 42 (2 ^ 64 - 2)).counter.toNat < 2 ^ 64 - 1 := by decide

/-- RandIntRefusesAnEmptyRange: an empty range, a later draw, and a range that is not empty with its
answer. -/
theorem witness_empty_range : (block 42 0).seeded = true ∧ (1 : Int) > 0 ∧
    (∃ t, exec (.randInt 0 255) (block 42 0) = .next t) ∧
    ∃ t x, exec (.randInt (-5) 5) (block 42 0) = .next t ∧ t.rsp = (block 42 0).rsp ++ [x] :=
  ⟨rfl, by decide, ⟨_, rfl⟩, _, _, rfl, rfl⟩

/-- NoDrawPassesTheTopOfTheCounter: at the top, and one draw below it with two items to make. -/
theorem witness_top : (block 42 (2 ^ 64 - 1)).seeded = true ∧
    (block 42 (2 ^ 64 - 1)).counter.toNat = 2 ^ 64 - 1 ∧ (7 : Int) ≤ 7 ∧ 0 < 1 ∧
    (block 42 (2 ^ 64 - 2)).seeded = true ∧ 2 ^ 64 - 1 < (block 42 (2 ^ 64 - 2)).counter.toNat + 2 := by
  decide

/-- UnseededCommandsFault: an unseeded block, and a seeding of it. -/
theorem witness_unseeded : blank.seeded = false ∧ ∃ t, exec (.seedI 42) blank = .next t :=
  ⟨rfl, _, rfl⟩

/-- RandIntAnswersInTheRange: an answer with CODE 0 (V66). -/
theorem witness_answer : (Instr.randInt (-5) 5).wellFormed = true ∧
    leaves (exec (.randInt (-5) 5) (block 42 0)) (fun t =>
      t.rsp == (block 42 0).rsp ++ [0xFFFFFFFD0#36] && (0xFFFFFFFD0#36).extractLsb' 0 4 == 0#4) = true := by
  decide +kernel

/-- TheRangeShapesOnlyTheAnswer: two ranges on one block. -/
theorem witness_two_ranges : (0 : Int) ≤ 255 ∧ (1 : Int) ≤ 6 ∧
    (∃ t, exec (.randInt 0 255) (block 42 0) = .next t) ∧
    ∃ u, exec (.randInt 1 6) (block 42 0) = .next u := ⟨by decide, by decide, ⟨_, rfl⟩, ⟨_, rfl⟩⟩

/-- AnswersRevealTheSeed: a seeded block with one draw left. -/
theorem witness_reveal : (block 42 (2 ^ 64 - 2)).seeded = true ∧
    (block 42 (2 ^ 64 - 2)).counter.toNat < 2 ^ 64 - 1 := by decide

/-- RandBytesEmitsOneItemPerDraw, RandBytesIsSuccessiveRandInts: exactly the draws COUNTER admits, and
none at the top. -/
theorem witness_randBytes : (block 42 (2 ^ 64 - 4)).seeded = true ∧
    (Instr.randBytes 3 true false).wellFormed = true ∧
    (block 42 (2 ^ 64 - 4)).counter.toNat + 3 ≤ 2 ^ 64 - 1 ∧
    (block 42 (2 ^ 64 - 1)).counter.toNat + 0 ≤ 2 ^ 64 - 1 := by decide

/-- RandBytesKeepsItsItemsOnOverflow: two items of five (V81), and none of one. -/
theorem witness_overflow : (block 42 18446744073709551613).seeded = true ∧
    (Instr.randBytes 5 true false).wellFormed = true ∧
    (block 42 18446744073709551613).counter.toNat + 2 = 2 ^ 64 - 1 ∧ 2 < 5 ∧
    (block 42 (2 ^ 64 - 1)).counter.toNat + 0 = 2 ^ 64 - 1 ∧ 0 < 1 := by decide

/-- RandBytesLengthsAdd: lengths 2 and 3 (V76). -/
theorem witness_lengths : (block 42 0).seeded = true ∧
    (block 42 0).counter.toNat + (2 + 3) ≤ 2 ^ 64 - 1 ∧
    (∃ t u, exec (.randBytes 2 true false) (block 42 0) = .next t ∧
      exec (.randBytes 3 true false) t = .next u) ∧
    ∃ w, exec (.randBytes (2 + 3) true false) (block 42 0) = .next w :=
  ⟨rfl, by decide, ⟨_, _, rfl, rfl⟩, ⟨_, rfl⟩⟩

/-- ReadableItemsArePrintable: a command that makes items (V72). -/
theorem witness_readable : leaves (exec (.randBytes 2 false true) (block 42 0)) (fun t =>
    t.out == (block 42 0).out ++ [54, 66]) = true := by decide +kernel

/-- EveryStepKeepsTheHistory: a block after one draw and a SAVE, with the record that says so, and its
next state. -/
theorem witness_history : HistoryInv ⟨1, some 1036962894, true⟩ snapshotBlock ∧
    ∃ t, step { snapshotBlock with cmd := [3] } = .next t :=
  ⟨⟨by decide, by decide, by decide, by decide⟩, ⟨_, rfl⟩⟩

/-- ChecksumsOfTheGivenStrings: "test" on MSG. -/
theorem witness_test_string :
    ({ blank with msg := [0x74, 0x65, 0x73, 0x74] } : State).msg = [0x74, 0x65, 0x73, 0x74] := rfl

/-- NumeralsAreTheShortestDecimal, MessagesAreThreeToSixtyBytes: the least positive number, and the
greatest below 2^64. -/
theorem witness_numeral : 0 < 1 ∧ 18446744073709551615 < 2 ^ 64 := by decide

/-- RoundingIsToNearestEven: a tie (V43), and another representable number as near. -/
theorem witness_tie : 0x3E0396FFFFFFFF < 2 ^ 64 ∧ representable 0x3E0396FFFFFFFE ∧
    (0x3E0396FFFFFFFE ≠ rn53 0x3E0396FFFFFFFF ∧
      distance 0x3E0396FFFFFFFE 0x3E0396FFFFFFFF =
        distance (rn53 0x3E0396FFFFFFFF) 0x3E0396FFFFFFFF) :=
  ⟨by decide, ⟨0x1F01CB7FFFFFFF, 1, by decide, by decide⟩, by decide +kernel⟩

/-- MappedValuesStayInTheRange, MappedValuesAreMonotone, MappedValuesOnTheNamedRanges: the greatest seed
and the widest range (V45). -/
theorem witness_mapper : 0xFFFFFFFF < 2 ^ 32 ∧ 0 ≤ 0xFFFFFFFF ∧
    (Instr.randInt (-(2 ^ 31)) (2 ^ 31 - 1)).wellFormed = true ∧ (-(2 ^ 31) : Int) ≤ 2 ^ 31 - 1 := by
  decide

/-- SmallSpansAreMappedExactly: the widest span without rounding (V69). -/
theorem witness_small_span : 0xFFFFFFFF < 2 ^ 32 ∧ (0 : Int) ≤ 2097151 ∧
    (2097151 : Int) - 0 + 1 ≤ 2 ^ 21 := by decide

end Sys2Proof.Tests
end

section
/-! The host's three inputs against the block (R3): none of them reaches a register, a flag, a response
or an item. -/

namespace Sys2Proof.Machine

theorem sameRegisters_sendCmd (s : State) (rs : List CmdRecord) : SameRegisters s (s.sendCmd rs) where
  seeded := sendCmd_seeded rs s
  savedValid := sendCmd_savedValid rs s
  seed := sendCmd_seed rs s
  counter := sendCmd_counter rs s
  saved := sendCmd_saved rs s
  incr := sendCmd_incr rs s

theorem sameRegisters_sendMsg (s : State) (bs : List Byte) : SameRegisters s (s.sendMsg bs) where
  seeded := sendMsg_seeded bs s
  savedValid := sendMsg_savedValid bs s
  seed := sendMsg_seed bs s
  counter := sendMsg_counter bs s
  saved := sendMsg_saved bs s
  incr := sendMsg_incr bs s

theorem sameRegisters_presentTime (s : State) (ts : List TimeWord) :
    SameRegisters s (s.presentTime ts) where
  seeded := presentTime_seeded ts s
  savedValid := presentTime_savedValid ts s
  seed := presentTime_seed ts s
  counter := presentTime_counter ts s
  saved := presentTime_saved ts s
  incr := presentTime_incr ts s

/-- Settles O17: one conjunct per input; its registers by the lemma above for that input, its streams
by the state's own laws. -/
theorem theHostReachesNoRegister : Obligations.TheHostReachesNoRegister := by
  intro s rs bs ts
  refine ⟨⟨sameRegisters_sendCmd s rs, ?cmdStreams⟩, ⟨sameRegisters_sendMsg s bs, ?msgStreams⟩,
    ⟨sameRegisters_presentTime s ts, ?timeStreams⟩⟩
  case cmdStreams =>
    exact ⟨sendCmd_rsp rs s, sendCmd_out rs s, sendCmd_cmd rs s, sendCmd_msg rs s, sendCmd_time rs s⟩
  case msgStreams =>
    exact ⟨sendMsg_rsp bs s, sendMsg_out bs s, sendMsg_cmd bs s, sendMsg_msg bs s, sendMsg_time bs s⟩
  case timeStreams =>
    exact ⟨presentTime_rsp ts s, presentTime_out ts s, presentTime_cmd ts s, presentTime_msg ts s,
      presentTime_time ts s⟩

end Sys2Proof.Machine
end

section
/-! The four statements of 10_state.md: what reset leaves (R35, R156), the access table (R36), and the
invariants of R34 with the history kept beside the machine. -/

namespace Sys2Proof.Machine

/-! ### Reset (R35, R156) -/

@[simp] theorem applyReset_seeded (s : State) : s.applyReset.seeded = false := rfl
@[simp] theorem applyReset_savedValid (s : State) : s.applyReset.savedValid = false := rfl
@[simp] theorem applyReset_cmd (s : State) : s.applyReset.cmd = [] := rfl
@[simp] theorem applyReset_msg (s : State) : s.applyReset.msg = [] := rfl
@[simp] theorem applyReset_rsp (s : State) : s.applyReset.rsp = [] := rfl
@[simp] theorem applyReset_out (s : State) : s.applyReset.out = [] := rfl

/-- With no record on CMD the block waits (R157; log entry 4). -/
theorem step_of_cmd_nil (s : State) (h : s.cmd = []) : step s = .next s := by
  rcases step_cases s with ⟨-, e⟩ | ⟨r, rest, _, hc, -⟩ | ⟨r, rest, _, hc, -⟩
  · exact e
  · simp [h] at hc
  · simp [h] at hc

/-- Settles O16: the fields of the two reset states, and the idle step of a block without a record. -/
theorem resetClearsTheFlagsAndTheStreams : Obligations.ResetClearsTheFlagsAndTheStreams := by
  refine ⟨⟨rfl, rfl, rfl, rfl, rfl, rfl⟩, fun s => ?_, step_of_cmd_nil _ rfl⟩
  exact ⟨applyReset_seeded s, applyReset_savedValid s, applyReset_rsp s, applyReset_out s,
    applyReset_cmd s, applyReset_msg s⟩

/-! ### The access table (R36) -/

/-- A sample of TIME takes no byte of MSG (R33). -/
theorem sampleTime_msg (s : State) : (sampleTime s).2.msg = s.msg := by
  rcases sampleTime_cases s with ⟨t, later, -, e⟩ | ⟨-, e⟩ <;> rw [e]

/-- A sample of TIME emits no response (R33). -/
theorem sampleTime_rsp (s : State) : (sampleTime s).2.rsp = s.rsp := by
  rcases sampleTime_cases s with ⟨t, later, -, e⟩ | ⟨-, e⟩ <;> rw [e]

/-- A sample of TIME emits no item (R33). -/
theorem sampleTime_out (s : State) : (sampleTime s).2.out = s.out := by
  rcases sampleTime_cases s with ⟨t, later, -, e⟩ | ⟨-, e⟩ <;> rw [e]

/-- Settles O14: one case per outcome of a command, in the order of `exec_cases`; in each the row of
R36 is read off the fields of the state the outcome leaves. -/
theorem commandsWriteOnlyWhatTheAccessTableSays :
    Obligations.CommandsWriteOnlyWhatTheAccessTableSays := by
  intro i s t h
  rcases exec_cases i s t h with ⟨rfl, rfl⟩ | ⟨v, rfl, rfl⟩ | ⟨len, rfl, -, rfl⟩ |
    ⟨len, rfl, -, rfl⟩ | ⟨c, -, rfl, -⟩ | ⟨rfl, -, rfl⟩ | ⟨rfl, -, -, rfl⟩ |
    ⟨a, b, rfl, -, -, -, rfl⟩ | ⟨n, d, r, k, c, rfl, -, -, -, rfl⟩
  -- The three seedings, SEED.S also while it waits: only the ports are claimed.
  · simp [sampleTime_msg, sampleTime_out]
  · simp
  · simp
  · simp
  -- A fault of any command: every field but RSP and CMD is what it was.
  · exact ⟨fun _ => rfl, fun _ => ⟨rfl, rfl⟩, fun _ => rfl, fun _ => ⟨rfl, rfl⟩, fun _ => rfl,
      fun _ => rfl, fun _ => rfl⟩
  -- SAVE and RESTORE.
  · simp
  · simp
  -- The two draws: one `advance`, or as many as there are items.
  · simp
  · simp

/-! ### The history beside the machine (R34; log entry 18) -/

theorem codeBits_beq_zero (c : Code) : (codeBits c == 0#4) = decide (c = .ok) := by
  rw [Bool.eq_iff_iff, beq_iff_eq, decide_eq_true_iff]
  exact ⟨codeBits_injective c .ok, fun h => h ▸ rfl⟩

/-- A response answers the command with success exactly when its code is OK. -/
theorem respondedOk_respond (c : Code) (v : Word) {s u : State} (hr : u.rsp = s.rsp) :
    respondedOk s (respond c v u) = decide (c = .ok) := by
  simp [respondedOk, hr, codeBits_beq_zero]

theorem respondedOk_respond_ok (v : Word) {s u : State} (hr : u.rsp = s.rsp) :
    respondedOk s (respond .ok v u) = true := by simp [respondedOk_respond _ _ hr]

theorem respondedOk_seedWith (v : SeedWord) {s u : State} (hr : u.rsp = s.rsp) :
    respondedOk s (seedWith v u) = true := respondedOk_respond_ok 0 hr

/-- A step without a response did not succeed. -/
theorem respondedOk_self (s : State) : respondedOk s s = false := by simp [respondedOk]

section history
variable {h : History} {s t : State}

/-- A step that neither succeeded nor emitted an item leaves the history as it was. -/
theorem History.after_of_not_ok (hok : respondedOk s t = false) (hout : t.out = s.out) :
    h.after s t = h := by
  unfold History.after
  split <;> simp [hok, hout]

/-- A fault leaves the history as it was. -/
theorem History.after_raise {c : Code} (hc : c ≠ .ok) : h.after s (raise c s) = h :=
  after_of_not_ok (by rw [raise, respondedOk_respond _ _ rfl, decide_eq_false hc]) rfl

/-- A successful seeding begins the history again. -/
theorem History.after_seeding {i : Instr}
    (hi : i = .seedT ∨ (∃ v, i = .seedI v) ∨ ∃ len, i = .seedS len)
    (hd : s.cmd.head?.map decode = some (.ok i)) (hok : respondedOk s t = true) :
    h.after s t = .start := by
  rcases hi with rfl | ⟨v, rfl⟩ | ⟨len, rfl⟩
  · simp [History.after, hd, hok]
  · simp [History.after, hd, hok]
  · simp [History.after, hd, hok]

theorem History.after_save (hd : s.cmd.head?.map decode = some (.ok .save))
    (hok : respondedOk s t = true) : h.after s t = { h with snapshot := some s.seed } := by
  simp [History.after, hd, hok]

theorem History.after_restore (hd : s.cmd.head?.map decode = some (.ok .restore))
    (hok : respondedOk s t = true) : h.after s t = { h with drawLast := false } := by
  simp [History.after, hd, hok]

/-- The history after `n` more draws. -/
def History.drawn (n : Nat) (h : History) : History :=
  { h with draws := h.draws + n, drawLast := h.drawLast || decide (0 < n) }

theorem History.after_randInt {a b : Int} (hd : s.cmd.head?.map decode = some (.ok (.randInt a b)))
    (hok : respondedOk s t = true) : h.after s t = h.drawn 1 := by
  simp [History.after, History.drawn, hd, hok]

/-- A RANDBYTES, completed or not, counts one draw for each of its items (R126, R130). -/
theorem History.after_randBytes {length : Nat} {d r : Bool} {items : List OutRecord}
    (hd : s.cmd.head?.map decode = some (.ok (.randBytes length d r)))
    (hout : t.out = s.out ++ items) : h.after s t = h.drawn items.length := by
  simp [History.after, History.drawn, hd, hout]

end history

/-! ### What each outcome does to the invariants of R34 -/

/-- The LCG step leaves a 32-bit value, zero-extended (R110). -/
theorem lcgStep_lt (seed : SeedWord) (incr : Word) : (lcgStep seed incr).toNat < 2 ^ 32 := by
  rw [lcgStep, BitVec.toNat_setWidth_of_le (by decide)]
  exact BitVec.isLt _

theorem iterated_advance_seed_lt (s : State) {n : Nat} (hn : 0 < n) :
    (iterated advance n s).seed.toNat < 2 ^ 32 := by
  obtain ⟨m, rfl⟩ := Nat.exists_eq_succ_of_ne_zero hn.ne'
  rw [iterated_succ, advance_seed]
  exact lcgStep_lt _ _

/-- Draws that COUNTER admits do not wrap it (R108, R111). -/
theorem iterated_advance_counter_toNat {s : State} {n : Nat}
    (hn : s.counter.toNat + n ≤ counterMax) :
    (iterated advance n s).counter.toNat = s.counter.toNat + n := by
  rw [counterMax_eq] at hn
  rw [iterated_advance_counter, BitVec.toNat_add, BitVec.toNat_ofNat]
  simp only [ctrW_eq]
  omega

theorem itemsOf_length (fmt : Bool) (range : Int × Int) (n : Nat) (s : State) :
    (itemsOf fmt range n s).length = n := by simp [itemsOf]

/-- A block without a snapshot, its COUNTER at 0 if it is seeded, meets R34 with no history. -/
theorem historyInv_start {s : State} (hv : s.savedValid = false)
    (hc : s.seeded = true → s.counter = 0) : HistoryInv .start s where
  unseeded _ := hv
  drawn hl := nomatch hl
  snapshot hs := by simp [hv] at hs
  counted hs := by simp [hc hs, History.start]

/-- Settles O43: at reset there is no snapshot and the block is not seeded. -/
theorem historyHoldsAtReset : Obligations.HistoryHoldsAtReset :=
  historyInv_start rfl nofun

/-- R34 after a seeding: a new history begins (R90). -/
theorem historyInv_seedWith (v : SeedWord) (s : State) : HistoryInv .start (seedWith v s) :=
  historyInv_start (seedWith_savedValid v s) fun _ => seedWith_counter v s

section preserved
variable {h : History} {s t : State}

/-- R34 speaks of the registers and flags only, not of the ports. -/
theorem HistoryInv.of_sameRegisters (hinv : HistoryInv h s) (e : SameRegisters s t) :
    HistoryInv h t where
  unseeded hs := by rw [e.savedValid]; exact hinv.unseeded (e.seeded ▸ hs)
  drawn hl := by rw [e.seed]; exact hinv.drawn hl
  snapshot hv := by rw [e.saved]; exact hinv.snapshot (e.savedValid ▸ hv)
  counted hs := by rw [e.counter]; exact hinv.counted (e.seeded ▸ hs)

/-- R34 (c) after a SAVE: the snapshot is the SEED of this moment. -/
theorem HistoryInv.save (hinv : HistoryInv h s) (hs : s.seeded = true) :
    HistoryInv { h with snapshot := some s.seed }
      (respond .ok 0 (flagsSaved { s with saved := s.seed })) where
  unseeded hs' := by simp [hs] at hs'
  drawn := hinv.drawn
  snapshot _ := rfl
  counted := hinv.counted

/-- R34 after a RESTORE: SEED need not be below 2^32, and COUNTER runs on (R102). -/
theorem HistoryInv.restore (hinv : HistoryInv h s) :
    HistoryInv { h with drawLast := false } (respond .ok 0 { s with seed := s.saved }) where
  unseeded := hinv.unseeded
  drawn hl := nomatch hl
  snapshot := hinv.snapshot
  counted := hinv.counted

/-- R34 after `n` draws, none of them past the top of COUNTER. -/
theorem HistoryInv.draws (hinv : HistoryInv h s) {n : Nat} (hn : s.counter.toNat + n ≤ counterMax) :
    HistoryInv (h.drawn n) (iterated advance n s) where
  unseeded := by simpa using hinv.unseeded
  drawn hl := by
    cases n with
    | zero => exact hinv.drawn (by simpa [History.drawn] using hl)
    | succ n => exact iterated_advance_seed_lt s n.succ_pos
  snapshot := by simpa [History.drawn] using hinv.snapshot
  counted hs := by
    rw [iterated_advance_counter_toNat hn, hinv.counted (by simpa using hs)]
    rfl

/-- A fault keeps R34: no register and nothing of the history changes (R142). -/
theorem HistoryInv.fault (hinv : HistoryInv h s) {c : Code} (hc : c ≠ .ok) :
    HistoryInv (h.after s (raise c s)) (raise c s) := by
  rw [History.after_raise hc]
  exact hinv.of_sameRegisters ⟨rfl, rfl, rfl, rfl, rfl, rfl⟩

/-- A step that waits keeps R34 (R157, R161). -/
theorem HistoryInv.idle (hinv : HistoryInv h s) : HistoryInv (h.after s s) s := by
  rwa [History.after_of_not_ok (respondedOk_self s) rfl]

/-- A seeding command that completes leads to R34 with the history begun again. -/
theorem historyInv_after_seedWith {i : Instr} {u : State} (v : SeedWord)
    (hi : i = .seedT ∨ (∃ v, i = .seedI v) ∨ ∃ len, i = .seedS len)
    (hd : s.cmd.head?.map decode = some (.ok i)) (hr : u.rsp = s.rsp) :
    HistoryInv (h.after s (seedWith v u)) (seedWith v u) := by
  rw [History.after_seeding hi hd (respondedOk_seedWith v hr)]
  exact historyInv_seedWith v u

/-- Every command keeps R34, with the history its own records add to: one case per outcome, in the
order of `exec_cases`. -/
theorem exec_keeps_historyInv {i : Instr} (hinv : HistoryInv h s)
    (hd : s.cmd.head?.map decode = some (.ok i)) (he : exec i s = .next t) :
    HistoryInv (h.after s t) t := by
  rcases exec_cases i s t he with ⟨rfl, rfl⟩ | ⟨v, rfl, rfl⟩ | ⟨len, rfl, -, rfl⟩ |
    ⟨len, rfl, -, rfl⟩ | ⟨c, hc, rfl, -⟩ | ⟨rfl, hs, rfl⟩ | ⟨rfl, -, -, rfl⟩ |
    ⟨a, b, rfl, -, -, hc, rfl⟩ | ⟨n, d, r, k, c, rfl, -, hk, -, rfl⟩
  -- SEED.T, SEED.I, SEED.S while it waits, SEED.S.
  · exact historyInv_after_seedWith _ (.inl rfl) hd (sampleTime_rsp s)
  · exact historyInv_after_seedWith _ (.inr (.inl ⟨v, rfl⟩)) hd rfl
  · exact hinv.idle
  · exact historyInv_after_seedWith _ (.inr (.inr ⟨len, rfl⟩)) hd rfl
  -- A fault of any command.
  · exact hinv.fault hc
  -- SAVE and RESTORE.
  · rw [History.after_save hd]
    · exact hinv.save hs
    · exact respondedOk_respond_ok 0 rfl
  · rw [History.after_restore hd]
    · exact hinv.restore
    · exact respondedOk_respond_ok 0 rfl
  -- RANDINT: one draw.
  · have hle := counter_le_max s
    rw [History.after_randInt hd]
    · exact (hinv.draws (n := 1) (by omega)).of_sameRegisters ⟨rfl, rfl, rfl, rfl, rfl, rfl⟩
    · exact respondedOk_respond_ok _ rfl
  -- RANDBYTES: `k` draws and as many items.
  · rw [History.after_randBytes hd rfl, itemsOf_length]
    exact (hinv.draws hk).of_sameRegisters ⟨rfl, rfl, rfl, rfl, rfl, rfl⟩

end preserved

/-- Settles O44: a step is idle, answers an ILLEGAL record, or executes a command, and each keeps the
invariants with the history it adds to. -/
theorem everyStepKeepsTheHistory : Obligations.EveryStepKeepsTheHistory := by
  intro h s t hinv hstep
  rcases step_cases s with ⟨-, e⟩ | ⟨r, rest, _, -, -, e⟩ | ⟨r, rest, i, hc, hd, e⟩ <;>
    rw [e] at hstep
  · cases hstep
    exact hinv.idle
  · cases hstep
    exact hinv.fault (by decide)
  · exact exec_keeps_historyInv hinv (by simp [hc, hd]) hstep

end Sys2Proof.Machine
end

section
/-! The two statements of 20_memory.md about the step: it is the decoded command and nothing else, and
each record gets one response (R50). -/

namespace Sys2Proof.Machine

/-! ### The step at a record (R50, R61) -/

section head
variable {s : State} {r : CmdRecord} {rest : List CmdRecord}

/-- A step at an ILLEGAL record answers IllegalCommand (R61). -/
theorem step_of_decode_error {e : Reject} (hc : s.cmd = r :: rest) (hd : decode r = .error e) :
    step s = .next (raise .illegalCommand s) := by simp [step, fetch, hc, hd, illegalCommand]

/-- A step at the record of a command executes it (R50). -/
theorem step_of_decode_ok {i : Instr} (hc : s.cmd = r :: rest) (hd : decode r = .ok i) :
    step s = exec i s := by simp [step, fetch, hc, hd]

/-- A block waits for bytes exactly when its record is a SEED.S short of them (R161). -/
theorem waitsForBytes_iff (hc : s.cmd = r :: rest) :
    waitsForBytes s ↔ ∃ len, decode r = .ok (.seedS len) ∧ s.msg.length < len := by
  constructor
  · rintro ⟨r', _, len, hc', hd, hlen⟩
    obtain ⟨rfl, -⟩ := List.cons.inj (hc.symm.trans hc')
    exact ⟨len, hd, hlen⟩
  · rintro ⟨len, hd, hlen⟩
    exact ⟨r, rest, len, hc, hd, hlen⟩

end head

/-- Settles O9: the step at a command's record, and the idle step. -/
theorem stepRunsTheDecodedCommand : Obligations.StepRunsTheDecodedCommand :=
  ⟨fun _ _ _ _ hc hd => step_of_decode_ok hc hd, step_of_cmd_nil⟩

/-! ### One response per record (R50, R70) -/

/-- From `s` to `t` the record at the head of CMD was answered: it is off CMD, RSP holds one response
more, and OUT what it held with the command's items after it. -/
structure AnsweredOnce (s t : State) : Prop where
  cmd : t.cmd = s.cmd.tail
  rsp : ∃ x, t.rsp = s.rsp ++ [x]
  out : ∃ items, t.out = s.out ++ items

/-- Whatever a command did before, if it left CMD and RSP alone and only appended to OUT, then its one
`respond` answers the record. -/
theorem answeredOnce_respond (c : Code) (v : Word) {s u : State} (hcmd : u.cmd = s.cmd)
    (hrsp : u.rsp = s.rsp) (hout : ∃ items, u.out = s.out ++ items) :
    AnsweredOnce s (respond c v u) where
  cmd := by rw [respond_cmd, hcmd]
  rsp := ⟨rspRecord c v, by rw [respond_rsp, hrsp]⟩
  out := hout

theorem answeredOnce_raise (c : Code) (s : State) : AnsweredOnce s (raise c s) :=
  answeredOnce_respond c 0 rfl rfl ⟨[], (List.append_nil _).symm⟩

theorem answeredOnce_seedWith (v : SeedWord) {s u : State} (hcmd : u.cmd = s.cmd)
    (hrsp : u.rsp = s.rsp) (hout : u.out = s.out) : AnsweredOnce s (seedWith v u) :=
  answeredOnce_respond .ok 0 hcmd hrsp ⟨[], by simp [hout]⟩

/-- A sample of TIME takes no record off CMD (R33). -/
theorem sampleTime_cmd (s : State) : (sampleTime s).2.cmd = s.cmd := by
  rcases sampleTime_cases s with ⟨t, later, -, e⟩ | ⟨-, e⟩ <;> rw [e]

/-- A command waits, which is a SEED.S short of bytes, or answers its record: one case per outcome, in
the order of `exec_cases`. -/
theorem exec_waits_or_answers {i : Instr} {s t : State} (h : exec i s = .next t) :
    ((∃ len, i = .seedS len ∧ s.msg.length < len) ∧ t = s) ∨
    ((¬ ∃ len, i = .seedS len ∧ s.msg.length < len) ∧ AnsweredOnce s t) := by
  rcases exec_cases i s t h with ⟨rfl, rfl⟩ | ⟨v, rfl, rfl⟩ | ⟨len, rfl, hlen, rfl⟩ |
    ⟨len, rfl, hlen, rfl⟩ | ⟨c, -, rfl, hi⟩ | ⟨rfl, -, rfl⟩ | ⟨rfl, -, -, rfl⟩ |
    ⟨a, b, rfl, -, -, -, rfl⟩ | ⟨n, d, r, k, c, rfl, -, -, -, rfl⟩
  -- SEED.T, SEED.I, SEED.S while it waits, SEED.S with its bytes.
  · exact .inr ⟨by simp, answeredOnce_seedWith _ (sampleTime_cmd s) (sampleTime_rsp s)
      (sampleTime_out s)⟩
  · exact .inr ⟨by simp, answeredOnce_seedWith _ rfl rfl rfl⟩
  · exact .inl ⟨⟨len, rfl, hlen⟩, rfl⟩
  · exact .inr ⟨by simpa using hlen, answeredOnce_seedWith _ rfl rfl rfl⟩
  -- A fault: no SEED.S among the commands that can have one.
  · refine .inr ⟨?_, answeredOnce_raise c s⟩
    rintro ⟨len, rfl, -⟩
    simp at hi
  -- SAVE and RESTORE.
  · exact .inr ⟨by simp, answeredOnce_respond _ _ rfl rfl ⟨[], by simp⟩⟩
  · exact .inr ⟨by simp, answeredOnce_respond _ _ rfl rfl ⟨[], by simp⟩⟩
  -- RANDINT, which emits no item, and RANDBYTES with its items.
  · exact .inr ⟨by simp, answeredOnce_respond _ _ rfl rfl ⟨[], by simp⟩⟩
  · exact .inr ⟨by simp, answeredOnce_respond _ _ (by simp) (by simp) ⟨_, rfl⟩⟩

/-- A step with a record on CMD waits inside a SEED.S or answers the record, and never both. -/
theorem step_waits_or_answers {s t : State} {r : CmdRecord} {rest : List CmdRecord}
    (hc : s.cmd = r :: rest) (h : step s = .next t) :
    (waitsForBytes s ∧ t = s) ∨ (¬ waitsForBytes s ∧ AnsweredOnce s t) := by
  rw [waitsForBytes_iff hc]
  cases hd : decode r with
  | error e =>
    rw [step_of_decode_error hc hd] at h
    cases h
    exact .inr ⟨by simp, answeredOnce_raise _ s⟩
  | ok i =>
    rw [step_of_decode_ok hc hd] at h
    simpa using exec_waits_or_answers h

/-- Settles O11: a waiting step changes nothing; any other answers the record once. -/
theorem eachRecordGetsExactlyOneResponse : Obligations.EachRecordGetsExactlyOneResponse := by
  intro s t r rest hc hstep
  rcases step_waits_or_answers hc hstep with ⟨hw, rfl⟩ | ⟨hw, ha⟩
  · exact ⟨⟨[], (List.append_nil _).symm⟩, .inl ⟨hw, rfl⟩⟩
  · exact ⟨ha.out, .inr ⟨hw, by rw [ha.cmd, hc, List.tail_cons], ha.rsp⟩⟩

end Sys2Proof.Machine
end

section
/-! The records of 30_encoding.md: encoding and decoding are inverse (R60), the mask-and-match table
is the decoder (R59), which records are ILLEGAL and what they answer (R61), the codes a response can
carry (R70), and the assembler's short forms (R75 to R77). -/

namespace Sys2Proof

/-! ### Encoding, then decoding (R56 to R58, R60) -/

/-- Settles O1: the fields of an assembled record are those it was assembled from, so the decoder
takes the command's own case; an operand in the range of R58 is read back as it was written. -/
theorem decodeOfEncodeIsTheCommand : Obligations.DecodeOfEncodeIsTheCommand := by
  intro i hwf
  rw [decode_eq_ok_iff]
  cases i with
  | seedT => simp [encode]
  | seedI v =>
    have hv : (BitVec.ofInt 64 v).toInt = v := toInt_ofInt_of_fitsSigned 64 v (by decide) hwf
    simp [encode, hv]
  | seedS len =>
    have hlen : (BitVec.ofNat 32 len).toNat = len := toNat_ofNat_of_fitsUnsigned 32 len hwf
    simp [encode, hlen]
  | seedX => simp [encode]
  | save => simp [encode]
  | restore => simp [encode]
  | randInt min max =>
    obtain ⟨hmin, hmax⟩ : fitsSigned 32 min = true ∧ fitsSigned 32 max = true := by
      simpa [Instr.wellFormed] using hwf
    have hmin' := toInt_ofInt_of_fitsSigned 32 min (by decide) hmin
    have hmax' := toInt_ofInt_of_fitsSigned 32 max (by decide) hmax
    simp [encode, hmin', hmax']
  | randBytes length dec rdbl =>
    have hlength := toNat_ofNat_of_fitsUnsigned 32 length hwf
    simp [encode, hlength]

/-! ### Decoding, then encoding (R58, R60) -/

/-- A record whose RSV is 0 is assembled from its OPD and the four fields of its CW (R55, R56). -/
theorem record_of_fields (r : CmdRecord) (hr : rsvOf r = 0) :
    record (opdOf r) (controlWord (opOf r) (kindOf r) (decOf r) (rdblOf r)) = r := by
  rw [← cwOf_eq_fields r hr, record_opdOf_cwOf]

/-- OPD is its low half when its high half is 0 (R57). -/
theorem opdOf_of_opdHiOf_zero (r : CmdRecord) (h : opdHiOf r = 0) :
    opdOf r = (0 : BitVec 32) ++ opdLoOf r := by
  rw [opdOf_eq_halves, h]

/-- Settles O2: in each case of the decoder the record is put together again from its fields, and
the operand of the command is written back to the bits it was read from. -/
theorem recordOfACommandIsItsEncoding : Obligations.RecordOfACommandIsItsEncoding := by
  intro r i hd hx
  obtain ⟨hrsv, hcase⟩ := (decode_eq_ok_iff r i).1 hd
  refine Eq.trans ?_ (record_of_fields r hrsv)
  rcases hcase with ⟨hop, hdec, hrdbl, hkind, hopd, rfl⟩ | ⟨hop, hdec, hrdbl, hkind, rfl⟩ |
    ⟨hop, hdec, hrdbl, hkind, hhi, rfl⟩ | ⟨-, -, -, -, rfl⟩ |
    ⟨hop, hdec, hrdbl, hkind, hopd, rfl⟩ | ⟨hop, hdec, hrdbl, hkind, hopd, rfl⟩ |
    ⟨hop, hdec, hrdbl, hkind, rfl⟩ | ⟨hop, hkind, hhi, rfl⟩
  · rw [hop, hdec, hrdbl, hkind, hopd, encode]
  · rw [hop, hdec, hrdbl, hkind, encode, BitVec.ofInt_toInt]
  · rw [hop, hdec, hrdbl, hkind, encode, opdOf_of_opdHiOf_zero r hhi, BitVec.ofNat_toNat,
      BitVec.setWidth_eq]
  · exact absurd rfl hx
  · rw [hop, hdec, hrdbl, hkind, hopd, encode]
  · rw [hop, hdec, hrdbl, hkind, hopd, encode]
  · rw [hop, hdec, hrdbl, hkind, encode, opdOf_eq_halves, BitVec.ofInt_toInt, BitVec.ofInt_toInt]
  · rw [hop, hkind, encode, opdOf_of_opdHiOf_zero r hhi, BitVec.ofNat_toNat, BitVec.setWidth_eq]

/-- What is read from an `n`-bit field as a signed number is in the field's range (R16). -/
theorem fitsSigned_toInt {n : Nat} (x : BitVec n) : fitsSigned n x.toInt = true :=
  decide_eq_true ⟨BitVec.le_toInt x, BitVec.toInt_lt⟩

/-- What is read from an `n`-bit field as an unsigned number is in the field's range (R16). -/
theorem fitsUnsigned_toNat {n : Nat} (x : BitVec n) : fitsUnsigned n x.toNat = true :=
  decide_eq_true x.isLt

/-- Settles O3: the operands of a decoded command were read from fields of the widths of R58. -/
theorem decodedCommandsAreInRange : Obligations.DecodedCommandsAreInRange := by
  intro r i hd
  obtain ⟨-, hcase⟩ := (decode_eq_ok_iff r i).1 hd
  rcases hcase with ⟨-, -, -, -, -, rfl⟩ | ⟨-, -, -, -, rfl⟩ | ⟨-, -, -, -, -, rfl⟩ |
    ⟨-, -, -, -, rfl⟩ | ⟨-, -, -, -, -, rfl⟩ | ⟨-, -, -, -, -, rfl⟩ | ⟨-, -, -, -, rfl⟩ |
    ⟨-, -, -, rfl⟩
  · rfl
  · exact fitsSigned_toInt (opdOf r)
  · exact fitsUnsigned_toNat (opdLoOf r)
  · rfl
  · rfl
  · rfl
  · exact Bool.and_eq_true_iff.2 ⟨fitsSigned_toInt (opdLoOf r), fitsSigned_toInt (opdHiOf r)⟩
  · exact fitsUnsigned_toNat (opdLoOf r)

/-! ### The opcode table (R59) -/

section masked
variable (a b : CmdRecord)

/-! A field of a masked record is the field masked. -/

theorem opdOf_and : opdOf (a &&& b) = opdOf a &&& opdOf b := BitVec.extractLsb'_and
theorem opdHiOf_and : opdHiOf (a &&& b) = opdHiOf a &&& opdHiOf b := BitVec.extractLsb'_and
theorem opOf_and : opOf (a &&& b) = opOf a &&& opOf b := BitVec.extractLsb'_and
theorem kindOf_and : kindOf (a &&& b) = kindOf a &&& kindOf b := BitVec.extractLsb'_and
theorem rsvOf_and : rsvOf (a &&& b) = rsvOf a &&& rsvOf b := BitVec.extractLsb'_and
theorem decOf_and : decOf (a &&& b) = (decOf a && decOf b) := BitVec.getLsbD_and
theorem rdblOf_and : rdblOf (a &&& b) = (rdblOf a && rdblOf b) := BitVec.getLsbD_and

end masked

/-- Every row fixes the whole of RSV, OP and KIND, and RSV to 0 (R59). -/
theorem opcodeTable_fixes_control : ∀ w ∈ opcodeTable, rsvOf w.mask = BitVec.allOnes 24 ∧
    opOf w.mask = BitVec.allOnes 4 ∧ kindOf w.mask = BitVec.allOnes 2 ∧ rsvOf w.pattern = 0 := by
  decide

/-- Every row but that of RANDBYTES fixes DEC and RDBL to 0 (R59). -/
theorem opcodeTable_fixes_options : ∀ w ∈ opcodeTable, w ≠ rowOf (.randBytes 0 false false) →
    decOf w.mask = true ∧ rdblOf w.mask = true ∧ decOf w.pattern = false ∧
      rdblOf w.pattern = false := by
  decide

section selected
variable {r : CmdRecord} {w : Row} (h : r &&& w.mask = w.pattern)
include h

/-! A record that selects a row agrees with its pattern on every field the row's mask covers. -/

theorem control_of_selected (hw : w ∈ opcodeTable) :
    rsvOf r = 0 ∧ opOf r = opOf w.pattern ∧ kindOf r = kindOf w.pattern := by
  obtain ⟨hrsv, hop, hkind, hzero⟩ := opcodeTable_fixes_control w hw
  rw [← hzero, ← h, rsvOf_and, opOf_and, kindOf_and, hrsv, hop, hkind]
  simp only [BitVec.and_allOnes, and_self]

theorem options_of_selected (hw : w ∈ opcodeTable) (hb : w ≠ rowOf (.randBytes 0 false false)) :
    decOf r = false ∧ rdblOf r = false := by
  obtain ⟨hdec, hrdbl, hdec0, hrdbl0⟩ := opcodeTable_fixes_options w hw hb
  constructor
  · rw [← hdec0, ← h, decOf_and, hdec, Bool.and_true]
  · rw [← hrdbl0, ← h, rdblOf_and, hrdbl, Bool.and_true]

theorem opdOf_of_selected (hm : opdOf w.mask = BitVec.allOnes 64) : opdOf r = opdOf w.pattern := by
  rw [← h, opdOf_and, hm, BitVec.and_allOnes]

theorem opdHiOf_of_selected (hm : opdHiOf w.mask = BitVec.allOnes 32) :
    opdHiOf r = opdHiOf w.pattern := by
  rw [← h, opdHiOf_and, hm, BitVec.and_allOnes]

/-- A record that selects a row of the table decodes to a command of that row: the row's case of the
decoder holds, and its operand is read from the bits the mask leaves open. -/
theorem decodes_of_selected (hw : w ∈ opcodeTable) : ∃ i, decode r = .ok i ∧ rowOf i = w := by
  obtain ⟨hrsv, hop, hkind⟩ := control_of_selected h hw
  have opd := opdOf_of_selected h
  have opdHi := opdHiOf_of_selected h
  simp only [decode_eq_ok_iff, hrsv, true_and]
  by_cases hb : w = rowOf (.randBytes 0 false false)
  · -- RANDBYTES, whose mask leaves DEC and RDBL open.
    subst hb
    exact ⟨_, .inr (.inr (.inr (.inr (.inr (.inr (.inr
      ⟨hop, hkind, opdHi (by decide), rfl⟩)))))), rfl⟩
  · obtain ⟨hdec, hrdbl⟩ := options_of_selected h hw hb
    simp only [opcodeTable, List.mem_cons, List.not_mem_nil, or_false] at hw
    rcases hw with rfl | rfl | rfl | rfl | rfl | rfl | rfl | rfl
    -- SEED.T, SEED.I, SEED.S, SEED.X.
    · exact ⟨_, .inl ⟨hop, hdec, hrdbl, hkind, opd (by decide), rfl⟩, rfl⟩
    · exact ⟨_, .inr (.inl ⟨hop, hdec, hrdbl, hkind, rfl⟩), rfl⟩
    · exact ⟨_, .inr (.inr (.inl ⟨hop, hdec, hrdbl, hkind, opdHi (by decide), rfl⟩)), rfl⟩
    · exact ⟨_, .inr (.inr (.inr (.inl ⟨hop, hdec, hrdbl, hkind, rfl⟩))), rfl⟩
    -- SAVE, RESTORE, RANDINT.
    · exact ⟨_, .inr (.inr (.inr (.inr (.inl
        ⟨hop, hdec, hrdbl, hkind, opd (by decide), rfl⟩)))), rfl⟩
    · exact ⟨_, .inr (.inr (.inr (.inr (.inr (.inl
        ⟨hop, hdec, hrdbl, hkind, opd (by decide), rfl⟩))))), rfl⟩
    · exact ⟨_, .inr (.inr (.inr (.inr (.inr (.inr (.inl
        ⟨hop, hdec, hrdbl, hkind, rfl⟩)))))), rfl⟩
    · exact absurd rfl hb

end selected

/-- The encoding of every command selects the command's row (R59). -/
theorem encode_selects_row (i : Instr) : encode i &&& (rowOf i).mask = (rowOf i).pattern := by
  cases i with
  | seedT => exact Laws.EncodingSelectsItsRow.seedT
  | seedI v => exact Laws.EncodingSelectsItsRow.seedI v
  | seedS len => exact Laws.EncodingSelectsItsRow.seedS len
  | seedX => exact Laws.EncodingSelectsItsRow.seedX
  | save => exact Laws.EncodingSelectsItsRow.save
  | restore => exact Laws.EncodingSelectsItsRow.restore
  | randInt min max => exact Laws.EncodingSelectsItsRow.randInt min max
  | randBytes length dec rdbl => exact Laws.EncodingSelectsItsRow.randBytes length dec rdbl

/-- A SEED.X with any OPD selects its row, whose mask covers CW alone (R59, R96). -/
theorem selects_row_of_decode_seedX {r : CmdRecord} (hd : decode r = .ok .seedX) :
    r &&& (rowOf .seedX).mask = (rowOf .seedX).pattern := by
  obtain ⟨hrsv, hop, hdec, hrdbl, hkind⟩ : rsvOf r = 0 ∧ opOf r = 1 ∧ decOf r = false ∧
      rdblOf r = false ∧ kindOf r = 3 := by simpa using (decode_eq_ok_iff r .seedX).1 hd
  rw [← record_of_fields r hrsv, hop, hdec, hrdbl, hkind]
  refine (Laws.EncodingSelectsItsRow.mask_cw (opdOf r) (controlWord 1 3 false false)).trans ?_
  decide

/-- A record selects the row of the command it decodes to: it is that command's encoding, or a
SEED.X. -/
theorem selects_row_of_decode {r : CmdRecord} {i : Instr} (hd : decode r = .ok i) :
    r &&& (rowOf i).mask = (rowOf i).pattern := by
  by_cases hx : i = .seedX
  · subst hx
    exact selects_row_of_decode_seedX hd
  · rw [← recordOfACommandIsItsEncoding r i hd hx]
    exact encode_selects_row i

/-- Settles O4: the decoder's case of a row from the fields the row fixes, and the row of a command
from its encoding. -/
theorem decodingSelectsTheTableRow : Obligations.DecodingSelectsTheTableRow := by
  intro r w hw
  constructor
  · exact fun h => decodes_of_selected h hw
  · rintro ⟨i, hd, rfl⟩
    exact selects_row_of_decode hd

/-- Settles O5: a record that selects two rows decodes to a command of each, but it decodes to one
command, and that has one row; the eight rows are different. -/
theorem tableRowsAreDisjoint : Obligations.TableRowsAreDisjoint := by
  have hne : opcodeTable.Pairwise (· ≠ ·) := by decide
  refine hne.imp_of_mem ?_
  rintro a b ha hb hab r ⟨hra, hrb⟩
  obtain ⟨i, hi, rfl⟩ := (decodingSelectsTheTableRow r a ha).1 hra
  obtain ⟨j, hj, rfl⟩ := (decodingSelectsTheTableRow r b hb).1 hrb
  rw [hi] at hj
  exact hab (congrArg rowOf (Except.ok.inj hj))

/-! ### ILLEGAL records (R61) -/

section illegal
variable (r : CmdRecord)

/-- A command without KIND, DEC and RDBL is rejected if one of them is set, or for its operand. -/
theorem plainControl_error_iff (x : Except Reject Instr) : (∃ e, plainControl r x = .error e) ↔
    kindOf r ≠ 0 ∨ (decOf r || rdblOf r) = true ∨ ∃ e, x = .error e := by
  unfold plainControl
  split_ifs with hk ho
  · exact iff_of_true ⟨_, rfl⟩ (.inl hk)
  · exact iff_of_true ⟨_, rfl⟩ (.inr (.inl ho))
  · rw [or_iff_right hk, or_iff_right ho]

theorem operandZero_error_iff {n : Nat} (field : BitVec n) (i : Instr) :
    (∃ e, operandZero field i = .error e) ↔ field ≠ 0 := by
  unfold operandZero
  split_ifs with hf
  · exact iff_of_true ⟨_, rfl⟩ hf
  · exact iff_of_false (by simp) hf

theorem decodeSeed_error_iff : (∃ e, decodeSeed r = .error e) ↔
    (decOf r || rdblOf r) = true ∨ (kindOf r = 0 ∧ opdOf r ≠ 0) ∨
      (kindOf r = 2 ∧ opdHiOf r ≠ 0) := by
  unfold decodeSeed
  split_ifs with ho h0 h1 h2
  · exact iff_of_true ⟨_, rfl⟩ (.inl ho)
  · simp [ho, h0, operandZero_error_iff]
  · simp [ho, h1]
  · simp [ho, h2, operandZero_error_iff]
  · exact iff_of_false (by simp) (by simp_all)

theorem decodeRandBytes_error_iff : (∃ e, decodeRandBytes r = .error e) ↔
    kindOf r ≠ 0 ∨ opdHiOf r ≠ 0 := by
  unfold decodeRandBytes
  split_ifs with hk
  · exact iff_of_true ⟨_, rfl⟩ (.inl hk)
  · rw [or_iff_right hk, operandZero_error_iff]

/-- An OP that is none of the five opcodes is 0 or 6 to 15 (R59). -/
theorem reservedOp_of_ne (op : BitVec 4) (h1 : op ≠ 1) (h2 : op ≠ 2) (h3 : op ≠ 3) (h4 : op ≠ 4)
    (h5 : op ≠ 5) : op.toNat = 0 ∨ 6 ≤ op.toNat := by
  revert op
  decide

/-- The causes of R61, with the fields by name. -/
theorem decode_error_iff : (∃ e, decode r = .error e) ↔
    ((opOf r).toNat = 0 ∨ 6 ≤ (opOf r).toNat) ∨ rsvOf r ≠ 0 ∨ (opOf r ≠ 1 ∧ kindOf r ≠ 0) ∨
    (opOf r ≠ 5 ∧ (decOf r || rdblOf r) = true) ∨
    (((opOf r = 1 ∧ kindOf r = 0) ∨ opOf r = 2 ∨ opOf r = 3) ∧ opdOf r ≠ 0) ∨
    (((opOf r = 1 ∧ kindOf r = 2) ∨ opOf r = 5) ∧ opdHiOf r ≠ 0) := by
  unfold decode
  by_cases hrsv : rsvOf r = 0
  · simp only [hrsv, ne_eq, not_true_eq_false, if_false, false_or]
    split_ifs with h1 h2 h3 h4 h5
    · simp [h1, decodeSeed_error_iff]
    · simp [h2, plainControl_error_iff, operandZero_error_iff]
    · simp [h3, plainControl_error_iff, operandZero_error_iff]
    · simp [h4, plainControl_error_iff]
    · simp [h5, decodeRandBytes_error_iff]
    · exact iff_of_true ⟨_, rfl⟩ (.inl (reservedOp_of_ne _ h1 h2 h3 h4 h5))
  · rw [if_pos hrsv]
    exact iff_of_true ⟨_, rfl⟩ (.inr (.inl hrsv))

/-- DEC and RDBL as one field of two bits, CW[7:6]. -/
theorem options_ne_zero_iff : r.extractLsb' 6 2 ≠ 0 ↔ (decOf r || rdblOf r) = true := by
  have pair : ∀ o : BitVec 2, o ≠ 0 ↔ (o.getLsbD 0 || o.getLsbD 1) = true := by decide
  have hdec : (r.extractLsb' 6 2).getLsbD 0 = decOf r := BitVec.getLsbD_extractLsb' ..
  have hrdbl : (r.extractLsb' 6 2).getLsbD 1 = rdblOf r := BitVec.getLsbD_extractLsb' ..
  rw [pair, hdec, hrdbl]

end illegal

end Sys2Proof

namespace Sys2Proof.Machine

/-- What the response to an ILLEGAL record looks like on RSP: CODE 4, VALUE 0 (R61). -/
theorem rspRecord_illegalCommand : rspRecord .illegalCommand 0 = 0x000000004#36 := by decide

/-- Settles O6: the causes field by field; OP = 0 in the all-zero record and RSV in the all-ones
one; and the step at an ILLEGAL record, which is `raise`. -/
theorem illegalRecordsFaultAndChangeNothing : Obligations.IllegalRecordsFaultAndChangeNothing := by
  refine ⟨fun r => ?causes, ?zeros, ?ones, ?answer⟩
  case causes =>
    rw [options_ne_zero_iff]
    exact decode_error_iff r
  case zeros => exact ⟨.reservedOp, by decide⟩
  case ones => exact ⟨.reservedBits, by decide⟩
  case answer =>
    intro s r rest e hc hd
    rw [step_of_decode_error hc hd, raise, respond, rspRecord_illegalCommand, hc, List.tail_cons]

/-! ### The codes of the responses (R70) -/

section codes
variable {s t u : State}

/-- One more response keeps the property: its code is one of R134. -/
theorem codesListed_respond (hs : codesListed s) (c : Code) (v : Word) (hr : u.rsp = s.rsp) :
    codesListed (respond c v u) := by
  intro x hx
  rw [respond_rsp, hr, List.mem_append, List.mem_singleton] at hx
  rcases hx with hx | rfl
  · exact hs x hx
  · rw [rspCode_rspRecord]
    exact codeBits_le c

/-- Every command keeps the property: one case per outcome, in the order of `exec_cases`. -/
theorem exec_keeps_codesListed {i : Instr} (hs : codesListed s) (he : exec i s = .next t) :
    codesListed t := by
  rcases exec_cases i s t he with ⟨-, rfl⟩ | ⟨v, -, rfl⟩ | ⟨len, -, -, rfl⟩ |
    ⟨len, -, -, rfl⟩ | ⟨c, -, rfl, -⟩ | ⟨-, -, rfl⟩ | ⟨-, -, -, rfl⟩ |
    ⟨a, b, -, -, -, -, rfl⟩ | ⟨n, d, r, k, c, -, -, -, -, rfl⟩
  -- SEED.T, SEED.I, SEED.S while it waits, SEED.S with its bytes.
  · exact codesListed_respond hs .ok 0 (sampleTime_rsp s)
  · exact codesListed_respond hs .ok 0 rfl
  · exact hs
  · exact codesListed_respond hs .ok 0 rfl
  -- A fault of any command.
  · exact codesListed_respond hs c 0 rfl
  -- SAVE and RESTORE, and the two draws.
  · exact codesListed_respond hs .ok 0 rfl
  · exact codesListed_respond hs .ok 0 rfl
  · exact codesListed_respond hs .ok _ rfl
  · exact codesListed_respond hs c _ (by simp)

end codes

/-- Settles O15: RSP is empty at reset, and a step appends at most one response, with a code of
R134. -/
theorem everyStepKeepsTheListedCodes : Obligations.EveryStepKeepsTheListedCodes := by
  refine ⟨fun x hx => absurd hx List.not_mem_nil, fun s t hs hstep => ?_⟩
  rcases step_cases s with ⟨-, e⟩ | ⟨r, rest, _, -, -, e⟩ | ⟨r, rest, i, -, -, e⟩ <;>
    rw [e] at hstep
  · cases hstep
    exact hs
  · cases hstep
    exact codesListed_respond hs .illegalCommand 0 rfl
  · exact exec_keeps_codesListed hs hstep

/-! ### The worked records and the short forms (R75 to R77) -/

/-- Settles O7: the seventeen records and the four responses are evaluated. -/
theorem workedRecordsDecodeToTheirCommands : Obligations.WorkedRecordsDecodeToTheirCommands := by
  refine ⟨?records, rfl, rfl, by decide, by decide, by decide, by decide⟩
  case records => decide

/-- A line whose operand no field can carry is refused (R75). -/
theorem assemble_of_not_wellFormed {l : Line} (h : (lineCommand l).wellFormed = false) (s : State) :
    assemble l s = none := by simp [assemble, h]

/-- What an assembled line leaves: the block, reset if the line says so, with the line's bytes and
its one record sent (R75, R76). -/
theorem assemble_eq_some {l : Line} {s t : State} (h : assemble l s = some t) :
    t = ((if lineResets l then s.applyReset else s).sendMsg (lineBytes l)).sendCmd
      [encode (lineCommand l)] := by
  unfold assemble at h
  by_cases hwf : (lineCommand l).wellFormed = true
  · rw [if_pos hwf] at h
    exact (Option.some.inj h).symm
  · rw [if_neg hwf] at h
    cases h

/-- Settles O8: the expansions are the equations of `lineCommand`; a NEW line assembles to a reset
block that was sent the command's bytes and its record. -/
theorem shortFormsExpandToTheirCommands : Obligations.ShortFormsExpandToTheirCommands := by
  refine ⟨rfl, fun _ => rfl, rfl, fun _ => rfl, fun _ _ => rfl, rfl, fun _ => rfl, fun _ => rfl,
    fun _ => ⟨rfl, rfl⟩, ?new, fun _ s h => assemble_of_not_wellFormed h s⟩
  case new =>
    intro input s t h
    rw [assemble_eq_some h]
    exact ⟨rfl, rfl, rfl, rfl, rfl, rfl⟩

end Sys2Proof.Machine
end

section
/-! The five statements of 40_crc_preprocessor.md: the checksum's other forms (R80 to R83) and the
decimal converter (R84, R86). -/

namespace Sys2Proof.Machine

/-! ### The table form (R82) -/

/-- Turns that meet only 0 bits shift and never apply the polynomial (R81). -/
theorem crcBits_eq_ushiftRight {n : Nat} {c : Word} (h : ∀ i < n, c.getLsbD i = false) :
    crcBits n c = c >>> n := by
  induction n generalizing c with
  | zero => exact (BitVec.ushiftRight_zero c).symm
  | succ n ih =>
    have hbit : crcBit c = c >>> 1 := by rw [crcBit, h 0 n.succ_pos]; rfl
    have hlow : ∀ i < n, (c >>> 1).getLsbD i = false := fun i hi => by
      rw [BitVec.getLsbD_ushiftRight, Nat.add_comm]
      exact h (i + 1) (Nat.succ_lt_succ hi)
    rw [crcBits, hbit, ih hlow, ← BitVec.shiftRight_add, Nat.add_comm]

/-- A word is its upper 24 bits in place and its low byte. -/
theorem high_xor_low (x : Word) : (x >>> 8 <<< 8) ^^^ (x.setWidth 8).setWidth 32 = x := by
  ext i hi
  by_cases h : i < 8
  · simp [h, BitVec.getLsbD_eq_getElem hi]
  · simp [h, Nat.add_sub_cancel' (Nat.le_of_not_lt h), BitVec.getLsbD_eq_getElem hi]

/-- The entering byte lies in bits 7:0, which the table form shifts out (R82). -/
theorem ushiftRight_xor_byte (c : Word) (b : Byte) : (c ^^^ b.setWidth 32) >>> 8 = c >>> 8 := by
  ext i hi
  simp

/-- What eight turns make of a register: its upper 24 bits move down, and the table tells the effect
of its low byte (R82). -/
theorem crcBits_eight (x : Word) : crcBits 8 x = (x >>> 8) ^^^ crcTable (x.setWidth 8) := by
  have hhigh : crcBits 8 (x >>> 8 <<< 8) = x >>> 8 := by
    rw [crcBits_eq_ushiftRight fun i hi => by simp [hi]]
    ext i hi
    simpa using BitVec.lt_of_getLsbD
  calc crcBits 8 x
      = crcBits 8 ((x >>> 8 <<< 8) ^^^ (x.setWidth 8).setWidth 32) := by rw [high_xor_low]
    _ = (x >>> 8) ^^^ crcTable (x.setWidth 8) := by rw [crcBits_xor, hhigh]; rfl

/-- Eight turns are one table step (R82). -/
theorem crcByte_eq_crcTableByte (c : Word) (b : Byte) : crcByte c b = crcTableByte c b := by
  rw [crcByte, crcBits_eight, ushiftRight_xor_byte]
  rfl

/-- Settles O46: the two registers take the same step at every byte. -/
theorem tableChecksumAgrees : Obligations.TableChecksumAgrees := by
  intro bs
  have h : crcByte = crcTableByte := funext₂ crcByte_eq_crcTableByte
  rw [crc32, crcBytes, h]
  rfl

/-! ### The unreflected form (R80) -/

theorem reverse_xor {w : Nat} (a b : BitVec w) : (a ^^^ b).reverse = a.reverse ^^^ b.reverse := by
  ext i hi
  simp [BitVec.getElem_reverse]

theorem reverse_shiftLeft {w : Nat} (a : BitVec w) (n : Nat) :
    (a <<< n).reverse = a.reverse >>> n := by
  ext i hi
  simp [BitVec.getElem_reverse, BitVec.getLsbD_reverse, Nat.add_comm]

/-- A byte that enters at the top with its bits reversed is, mirrored, the byte at bits 7:0. -/
theorem reverse_top_byte (b : Byte) :
    (b.reverse ++ 0#24 : BitVec (8 + 24)).reverse = b.setWidth 32 := by
  have hzero : (0#24).reverse = 0#24 := BitVec.reverse_eq_zero_iff.mpr rfl
  rw [BitVec.reverse_append, hzero, BitVec.reverse_reverse_eq,
    BitVec.setWidth_eq_append (by decide)]

/-- One turn of the unreflected register is, mirrored, one turn of R81's. -/
theorem reverse_crcTurn (c : Word) : (crcTurn c).reverse = crcBit c.reverse := by
  have hpoly : (0x04C11DB7#32).reverse = crcPoly := by decide +kernel
  have hout : c.reverse.getLsbD 0 = c.msb := by rw [BitVec.getLsbD_reverse, BitVec.msb]
  unfold crcTurn crcBit
  rw [hout]
  split
  · rw [reverse_xor, reverse_shiftLeft, hpoly]
  · rw [reverse_shiftLeft]

/-- One byte through the unreflected register is, mirrored, one byte through R81's. -/
theorem reverse_crcTurns (c : Word) (b : Byte) : (crcTurns c b).reverse = crcByte c.reverse b := by
  rw [crcByte, ← reverse_top_byte, ← reverse_xor]
  simp only [crcTurns, crcBits, reverse_crcTurn]

/-- The two registers stay mirror images over all bytes. -/
theorem reverse_foldl_crcTurns (c : Word) (bs : List Byte) :
    (bs.foldl crcTurns c).reverse = crcBytes c.reverse bs := by
  induction bs generalizing c with
  | nil => rfl
  | cons b bs ih =>
    rw [List.foldl_cons, ih, reverse_crcTurns]
    rfl

/-- Settles O47: the initial value is its own mirror image, and the registers stay mirror images. -/
theorem checksumHasTheGivenParameters : Obligations.ChecksumHasTheGivenParameters := by
  intro bs
  have hinit : (0xFFFFFFFF#32).reverse = crcInit := by decide +kernel
  rw [crcByParameters, reverse_foldl_crcTurns, hinit]
  rfl

/-! ### The decimal converter (R84, R86) -/

/-- Numerals are built digit by digit: a claim that holds of the one-digit numerals and is kept by
writing one digit more holds of them all (R84). -/
theorem dec_induction {P : Nat → List Byte → Prop} (one : ∀ n < 10, P n [digit n])
    (more : ∀ n ≥ 10, P (n / 10) (dec (n / 10)) → P n (dec (n / 10) ++ [digit (n % 10)]))
    (n : Nat) : P n (dec n) := by
  induction n using Nat.strong_induction_on with
  | h n ih =>
    rcases Nat.lt_or_ge n 10 with h | h
    · rw [dec_of_lt_ten n h]
      exact one n h
    · rw [dec_of_ge_ten n h]
      exact more n h (ih (n / 10) (by omega))

/-- One digit more multiplies the value by ten and adds the digit's (R84). -/
theorem numeralValue_append_digit (ds : List Byte) {d : Nat} (h : d < 10) :
    numeralValue (ds ++ [digit d]) = 10 * numeralValue ds + d := by
  simp [numeralValue, digit_toNat d h]

/-- The value of a numeral is its number (R84). -/
theorem numeralValue_dec (n : Nat) : numeralValue (dec n) = n := by
  refine dec_induction (P := fun n ds => numeralValue ds = n)
    (fun n h => ?one) (fun n _ ih => ?more) n
  case one => exact (numeralValue_append_digit [] h).trans (Nat.zero_add n)
  case more =>
    rw [numeralValue_append_digit _ (Nat.mod_lt n (by decide)), ih]
    exact Nat.div_add_mod n 10

theorem digit_bounds {d : Nat} (h : d < 10) : 0x30 ≤ (digit d).toNat ∧ (digit d).toNat ≤ 0x39 := by
  rw [digit_toNat d h]
  omega

/-- Every byte of a numeral is the character of a digit (R84). -/
theorem dec_digits (n : Nat) : ∀ d ∈ dec n, 0x30 ≤ d.toNat ∧ d.toNat ≤ 0x39 := by
  refine dec_induction (P := fun _ ds => ∀ d ∈ ds, 0x30 ≤ d.toNat ∧ d.toNat ≤ 0x39)
    (fun n h => ?one) (fun n _ ih => ?more) n
  case one => simpa using digit_bounds h
  case more =>
    rw [List.forall_mem_append, List.forall_mem_singleton]
    exact ⟨ih, digit_bounds (Nat.mod_lt n (by decide))⟩

theorem digit_ne_zero {d : Nat} (hpos : 0 < d) (h : d < 10) : digit d ≠ 0x30 := by
  intro e
  have hd : (0x30 : Byte).toNat = 0x30 + d := e ▸ digit_toNat d h
  have hz : (0x30 : Byte).toNat = 0x30 := rfl
  omega

/-- The first byte of a positive numeral is not "0": it stays first when digits follow (R84). -/
theorem dec_no_leading_zero (n : Nat) : 0 < n → ∃ d ds, dec n = d :: ds ∧ d ≠ 0x30 := by
  refine dec_induction (P := fun n l => 0 < n → ∃ d ds, l = d :: ds ∧ d ≠ 0x30)
    (fun n h hpos => ?one) (fun n h ih _ => ?more) n
  case one => exact ⟨digit n, [], rfl, digit_ne_zero hpos h⟩
  case more =>
    obtain ⟨d, ds, e, hd⟩ := ih (by omega)
    exact ⟨d, ds ++ [digit (n % 10)], by rw [e]; rfl, hd⟩

/-- Settles O48: value, digits and first digit by the lemmas above, and the numeral of 0. -/
theorem numeralsAreTheShortestDecimal : Obligations.NumeralsAreTheShortestDecimal :=
  ⟨numeralValue_dec, dec_digits, dec_no_leading_zero, rfl⟩

/-- A numeral has one byte more than its number has powers of ten in it (R86). -/
theorem dec_length (n : Nat) : (dec n).length = Nat.log 10 n + 1 := by
  refine dec_induction (P := fun n ds => ds.length = Nat.log 10 n + 1)
    (fun n h => ?one) (fun n h ih => ?more) n
  case one => rw [Nat.log_of_lt h]; rfl
  case more => rw [List.length_append, ih, Nat.log_of_one_lt_of_le (by decide) h]; rfl

theorem dec_length_pos (n : Nat) : 1 ≤ (dec n).length := by
  rw [dec_length]
  exact Nat.le_add_left ..

/-- A number below 10^k has at most k digits (R86). -/
theorem dec_length_le {n k : Nat} (hk : k ≠ 0) (h : n < 10 ^ k) : (dec n).length ≤ k := by
  rw [dec_length]
  exact Nat.log_lt_of_lt_pow' hk h

/-- A number below 2^64 has at most 20 digits (R86). -/
theorem dec_length_le_twenty {n : Nat} (h : n < 2 ^ 64) : (dec n).length ≤ 20 :=
  dec_length_le (by decide) (h.trans (by decide))

/-- The message of a draw has 3 to 60 bytes, its three numerals 1 to 20 each (R86, R109). -/
theorem drawMessage_length (s : State) :
    3 ≤ (drawMessage s).length ∧ (drawMessage s).length ≤ 60 := by
  have hc := dec_length_pos s.counter.toNat
  have hs := dec_length_pos s.seed.toNat
  have hc' := dec_length_le_twenty s.counter.isLt
  have hs' := dec_length_le_twenty s.seed.isLt
  simp only [drawMessage, List.length_append]
  omega

/-- After a draw SEED is a 32-bit value, of at most ten digits (R86, R110). -/
theorem advance_seed_digits (s : State) :
    (advance s).seed.toNat < 2 ^ 32 ∧ (dec (advance s).seed.toNat).length ≤ 10 := by
  have h : (advance s).seed.toNat < 2 ^ 32 := lcgStep_lt _ _
  exact ⟨h, dec_length_le (by decide) (h.trans (by decide))⟩

/-- Settles O49: the bounds by the lemmas above, the longest numeral by its logarithm, and the two
messages "11111" evaluated. -/
theorem messagesAreThreeToSixtyBytes : Obligations.MessagesAreThreeToSixtyBytes := by
  refine ⟨fun n h => ⟨dec_length_pos n, dec_length_le_twenty h⟩, ?longest, drawMessage_length,
    advance_seed_digits, by decide, by decide⟩
  case longest =>
    rw [dec_length, Nat.log_eq_of_pow_le_of_lt_pow (m := 19) (by decide) (by decide)]

/-! ### The given checksums (R83) -/

/-- A SEED.S with its bytes on MSG completes with their checksum (R94, R161). -/
theorem exec_seedS_of_le {len : Nat} {s : State} (h : len ≤ s.msg.length) : exec (.seedS len) s =
    .next (seedWith (stringSeed (s.msg.take len)) { s with msg := s.msg.drop len }) := by
  rcases popBytes_eq len s with ⟨-, hp⟩ | ⟨hlt, -⟩
  · simp only [exec, execSeedS, hp]
  · omega

/-- The seed of a string is its checksum as a number (R94). -/
theorem stringSeed_toNat (bs : List Byte) : (stringSeed bs).toNat = (crc32 bs).toNat :=
  BitVec.toNat_setWidth_of_le (by decide)

/-- Settles O45: the checksums are evaluated; SEED.S of "test" loads the one of "test". -/
theorem checksumsOfTheGivenStrings : Obligations.ChecksumsOfTheGivenStrings := by
  have htest : crc32 [0x74, 0x65, 0x73, 0x74] = 0xD87F7E0C#32 := by decide +kernel
  refine ⟨by decide, by decide +kernel, htest, rfl, by decide +kernel, by decide +kernel,
    by decide +kernel, fun s hs => ?seed⟩
  case seed =>
    refine ⟨_, exec_seedS_of_le (by simp [hs]), ?_⟩
    rw [seedWith_seed, stringSeed_toNat, hs, List.take_of_length_le (by simp), htest]
    rfl

end Sys2Proof.Machine
end

section
/-! The five statements of 41_seeding.md: what each of the three seedings loads (R90 to R94), and
replay (R97), as a step over two blocks that no command tells apart and as whole runs from a seeding
on. -/

namespace Sys2Proof.Machine

/-! ### What a seeding loads (R90 to R94) -/

/-- The common effect of R90, whatever a seeding did before it to MSG and TIME. -/
theorem seededWith_seedWith (v : SeedWord) {s u : State} (hcmd : u.cmd = s.cmd)
    (hrsp : u.rsp = s.rsp) (hout : u.out = s.out) : SeededWith v.toNat s (seedWith v u) where
  seed := rfl
  counter := rfl
  savedValid := rfl
  seeded := rfl
  rsp := by rw [seedWith_rsp, hrsp]; rfl
  out := hout
  cmd := by rw [seedWith_cmd, hcmd]

/-- The value of a sample: the next one of the script, or free (R33; log entry 3). -/
theorem sampleTime_value (s : State) :
    (sampleTime s).1 = s.time.headD (Config.freeTime s.freeIndex) := by
  rcases sampleTime_cases s with ⟨t, later, ht, e⟩ | ⟨ht, e⟩ <;> rw [e, ht] <;> rfl

/-- A sample uses up the head of the script (R33; log entry 3). -/
theorem sampleTime_time (s : State) : (sampleTime s).2.time = s.time.tail := by
  rcases sampleTime_cases s with ⟨t, later, ht, e⟩ | ⟨ht, e⟩ <;> rw [e, ht] <;> rfl

theorem exec_seedT (s : State) :
    exec .seedT s = .next (seedWith (timeSeed (sampleTime s).1) (sampleTime s).2) := rfl

theorem exec_seedI (v : Int) (s : State) :
    exec (.seedI v) s = .next (seedWith (integerSeed v) s) := rfl

/-- A SEED.S short of its bytes waits (R161). -/
theorem exec_seedS_of_lt {len : Nat} {s : State} (h : s.msg.length < len) :
    exec (.seedS len) s = .next s := by
  rcases popBytes_eq len s with ⟨hle, -⟩ | ⟨-, hp⟩
  · omega
  · simp only [exec, execSeedS, hp, wait_eq]

/-- SEED is as wide as a sample, so none of it is lost (R91). -/
theorem timeSeed_toNat (t : TimeWord) : (timeSeed t).toNat = t.toNat :=
  BitVec.toNat_setWidth_of_le (by decide)

/-- Every operand of SEED.I has a magnitude of at most 2^63, which SEED holds (R92 b). -/
theorem integerSeed_toNat {v : Int} (h : (Instr.seedI v).wellFormed = true) :
    (integerSeed v).toNat = v.natAbs := by
  have hv : -(2 : Int) ^ 63 ≤ v ∧ v < 2 ^ 63 := of_decide_eq_true h
  have hlt : v.natAbs < 2 ^ 64 := by omega
  rw [integerSeed, BitVec.toNat_ofNat, Nat.mod_eq_of_lt hlt]

/-- Settles O18: the sample's value and what it leaves of TIME, under the common effect. -/
theorem timeSeedingLoadsOneSample : Obligations.TimeSeedingLoadsOneSample := by
  intro s
  refine ⟨_, exec_seedT s, ?seeded, sampleTime_time s, sampleTime_msg s⟩
  case seeded =>
    rw [← sampleTime_value, ← timeSeed_toNat]
    exact seededWith_seedWith _ (sampleTime_cmd s) (sampleTime_rsp s) (sampleTime_out s)

/-- Settles O19: the magnitude fits SEED, under the common effect. -/
theorem integerSeedingLoadsTheMagnitude : Obligations.IntegerSeedingLoadsTheMagnitude := by
  intro v s hv
  refine ⟨_, exec_seedI v s, ?seeded, rfl, rfl⟩
  case seeded =>
    rw [← integerSeed_toNat hv]
    exact seededWith_seedWith _ rfl rfl rfl

/-- Settles O20: the bytes popped are those sent first, under the common effect. -/
theorem stringSeedingLoadsTheChecksum : Obligations.StringSeedingLoadsTheChecksum := by
  intro bytes later s hmsg
  have htake : s.msg.take bytes.length = bytes := by rw [hmsg, List.take_left]
  have hdrop : s.msg.drop bytes.length = later := by rw [hmsg, List.drop_left]
  refine ⟨_, exec_seedS_of_le (by simp [hmsg]), ?seeded, hdrop, rfl⟩
  case seeded =>
    rw [htake, ← stringSeed_toNat]
    exact seededWith_seedWith _ rfl rfl rfl

/-! ### The commands that need a seeding, one equation per outcome (R100, R101, R106, R139) -/

/-- The commands that answer NotSeeded on an unseeded block, and nothing more (R139). -/
theorem exec_of_unseeded {i : Instr} {s : State} (hs : s.seeded = false)
    (hi : i = .save ∨ i = .restore ∨ (∃ a b, i = .randInt a b) ∨ ∃ n d r, i = .randBytes n d r) :
    exec i s = .next (raise .notSeeded s) := by
  rcases hi with rfl | rfl | ⟨a, b, rfl⟩ | ⟨n, d, r, rfl⟩
  · simp [exec, execSave, hs]
  · simp [exec, execRestore, hs]
  · simp [exec, execRandInt, hs]
  · simp [exec, execRandBytes, hs]

section seeded
variable {s : State} (hs : s.seeded = true)
include hs

theorem exec_save_of_seeded :
    exec .save s = .next (respond .ok 0 (flagsSaved { s with saved := s.seed })) := by
  simp [exec, execSave, hs]

theorem exec_restore_of_savedValid (hv : s.savedValid = true) :
    exec .restore s = .next (respond .ok 0 { s with seed := s.saved }) := by
  simp [exec, execRestore, hs, hv]

theorem exec_restore_of_not_savedValid (hv : s.savedValid = false) :
    exec .restore s = .next (raise .invalidState s) := by
  simp [exec, execRestore, hs, hv]

theorem exec_randInt_of_gt {a b : Int} (hr : a > b) :
    exec (.randInt a b) s = .next (raise .invalidRange s) := by
  simp [exec, execRandInt, hs, hr]

theorem exec_randInt_of_counterAtTop {a b : Int} (hr : ¬ a > b) (hc : counterAtTop s = true) :
    exec (.randInt a b) s = .next (raise .counterOverflow s) := by
  simp [exec, execRandInt, hs, hr, hc]

theorem exec_randInt_of_draw {a b : Int} (hr : ¬ a > b) (hc : counterAtTop s = false) :
    exec (.randInt a b) s = .next (respond .ok (BitVec.ofInt 32 (draw a b s).1) (advance s)) := by
  simp [exec, execRandInt, hs, hr, hc, draw]

end seeded

/-! ### Two blocks side by side (R97) -/

/-- From `s₁` to `t₁` and from `s₂` to `t₂` the block emitted the same responses and items. -/
structure EmittedAlike (s₁ t₁ s₂ t₂ : State) : Prop where
  rsp : ∃ responses, t₁.rsp = s₁.rsp ++ responses ∧ t₂.rsp = s₂.rsp ++ responses
  out : ∃ items, t₁.out = s₁.out ++ items ∧ t₂.out = s₂.out ++ items

theorem EmittedAlike.refl (s₁ s₂ : State) : EmittedAlike s₁ s₁ s₂ s₂ where
  rsp := ⟨[], by simp⟩
  out := ⟨[], by simp⟩

theorem EmittedAlike.trans {s₁ t₁ u₁ s₂ t₂ u₂ : State} (h : EmittedAlike s₁ t₁ s₂ t₂)
    (h' : EmittedAlike t₁ u₁ t₂ u₂) : EmittedAlike s₁ u₁ s₂ u₂ := by
  obtain ⟨⟨r, r₁, r₂⟩, x, x₁, x₂⟩ := h
  obtain ⟨⟨r', r₁', r₂'⟩, x', x₁', x₂'⟩ := h'
  exact ⟨⟨r ++ r', by simp [r₁', r₁], by simp [r₂', r₂]⟩,
    x ++ x', by simp [x₁', x₁], by simp [x₂', x₂]⟩

/-- Commands that left RSP alone, emitted the same items and then answer with the same response. -/
theorem emittedAlike_respond (c : Code) (v : Word) {s₁ u₁ s₂ u₂ : State} (items : List OutRecord)
    (r₁ : u₁.rsp = s₁.rsp) (r₂ : u₂.rsp = s₂.rsp) (x₁ : u₁.out = s₁.out ++ items)
    (x₂ : u₂.out = s₂.out ++ items) : EmittedAlike s₁ (respond c v u₁) s₂ (respond c v u₂) where
  rsp := ⟨[rspRecord c v], by rw [respond_rsp, r₁], by rw [respond_rsp, r₂]⟩
  out := ⟨items, x₁, x₂⟩

/-- A step or a command `f` answers a next state from each of two blocks; they have emitted the same
and no command tells them apart. -/
def AnsweredAlike (f : State → Host.Outcome State Fault Refusal) (s₁ s₂ : State) : Prop :=
  ∃ t₁ t₂, f s₁ = .next t₁ ∧ f s₂ = .next t₂ ∧ Indistinguishable t₁ t₂ ∧ EmittedAlike s₁ t₁ s₂ t₂

/-- Two blocks with the same inputs, and a TIME sample for every SEED.T on CMD; their registers and
flags are free. -/
structure SameInputs (s t : State) : Prop where
  cmd : t.cmd = s.cmd
  msg : t.msg = s.msg
  time : t.time = s.time
  samples : timeSeedings s.cmd ≤ s.time.length

/-- Once a record is done with, no more samples are owed than before. -/
theorem timeSeedings_tail_le (rs : List CmdRecord) : timeSeedings rs.tail ≤ timeSeedings rs :=
  (List.tail_sublist rs).countP_le

/-- A SEED.T at the head of CMD is owed one sample more than the records after it. -/
theorem timeSeedings_cons_seedT {r : CmdRecord} (hd : decode r = .ok .seedT)
    (rest : List CmdRecord) : timeSeedings (r :: rest) = timeSeedings rest + 1 :=
  List.countP_cons_of_pos (by simp [hd])

section pair
variable {s₁ s₂ : State}

theorem Indistinguishable.sameInputs (h : Indistinguishable s₁ s₂) : SameInputs s₁ s₂ :=
  ⟨h.cmd, h.msg, h.time, h.samples⟩

/-! ### Seedings make two blocks alike (R90) -/

/-- A seeding with the same seed leaves nothing of the registers and flags of before (R90). -/
theorem indistinguishable_seedWith (v : SeedWord) {u₁ u₂ : State} (hcmd : u₂.cmd = u₁.cmd)
    (hmsg : u₂.msg = u₁.msg) (htime : u₂.time = u₁.time)
    (hsamples : timeSeedings u₁.cmd.tail ≤ u₁.time.length) :
    Indistinguishable (seedWith v u₁) (seedWith v u₂) where
  seeded := rfl
  savedValid := rfl
  seed _ := rfl
  counter _ := rfl
  saved hv := nomatch hv
  cmd := by simp [hcmd]
  msg := hmsg
  time := htime
  samples := hsamples

/-- SEED.T with its sample in the script: the two blocks load the same one (R91). -/
theorem seedT_answeredAlike {r : CmdRecord} {rest : List CmdRecord} (h : SameInputs s₁ s₂)
    (hc : s₁.cmd = r :: rest) (hd : decode r = .ok .seedT) :
    AnsweredAlike (exec .seedT) s₁ s₂ := by
  have hn := h.samples
  rw [hc, timeSeedings_cons_seedT hd] at hn
  rcases sampleTime_cases s₁ with ⟨t, later, ht, e₁⟩ | ⟨ht, -⟩
  · have e₂ : sampleTime s₂ = (t, { s₂ with time := later }) := by simp [sampleTime, h.time, ht]
    refine ⟨_, _, exec_seedT s₁, exec_seedT s₂, ?_⟩
    rw [e₁, e₂]
    refine ⟨indistinguishable_seedWith _ h.cmd h.msg rfl ?samples,
      emittedAlike_respond _ _ [] rfl rfl (by simp) (by simp)⟩
    case samples => simpa [hc, ht] using hn
  · simp [ht] at hn

theorem seedI_answeredAlike (v : Int) (h : SameInputs s₁ s₂) :
    AnsweredAlike (exec (.seedI v)) s₁ s₂ :=
  ⟨_, _, exec_seedI v s₁, exec_seedI v s₂,
    indistinguishable_seedWith _ h.cmd h.msg h.time ((timeSeedings_tail_le _).trans h.samples),
    emittedAlike_respond _ _ [] rfl rfl (by simp) (by simp)⟩

/-- SEED.S with its bytes on MSG: the two blocks pop the same ones (R94). -/
theorem seedS_answeredAlike {len : Nat} (h : SameInputs s₁ s₂) (hlen : len ≤ s₁.msg.length) :
    AnsweredAlike (exec (.seedS len)) s₁ s₂ := by
  refine ⟨_, _, exec_seedS_of_le hlen, exec_seedS_of_le (h.msg ▸ hlen), ?_⟩
  rw [h.msg]
  exact ⟨indistinguishable_seedWith _ h.cmd rfl h.time
      ((timeSeedings_tail_le _).trans h.samples),
    emittedAlike_respond _ _ [] rfl rfl (by simp) (by simp)⟩

/-- A seeding on two blocks with the same inputs waits in both, or leaves them alike whatever their
registers and flags were (R90, R161). -/
theorem seeding_waits_or_answeredAlike {r : CmdRecord} {rest : List CmdRecord} {i : Instr}
    (h : SameInputs s₁ s₂) (hc : s₁.cmd = r :: rest) (hd : decode r = .ok i)
    (hi : i = .seedT ∨ (∃ v, i = .seedI v) ∨ ∃ len, i = .seedS len) :
    (exec i s₁ = .next s₁ ∧ exec i s₂ = .next s₂) ∨ AnsweredAlike (exec i) s₁ s₂ := by
  rcases hi with rfl | ⟨v, rfl⟩ | ⟨len, rfl⟩
  · exact .inr (seedT_answeredAlike h hc hd)
  · exact .inr (seedI_answeredAlike v h)
  · rcases lt_or_ge s₁.msg.length len with hlt | hle
    · exact .inl ⟨exec_seedS_of_lt hlt, exec_seedS_of_lt (h.msg ▸ hlt)⟩
    · exact .inr (seedS_answeredAlike h hle)

/-! ### The other commands keep two blocks alike -/

variable (h : Indistinguishable s₁ s₂)
include h

/-- A step that waits in both blocks. -/
theorem Indistinguishable.waits {f : State → Host.Outcome State Fault Refusal}
    (h₁ : f s₁ = .next s₁) (h₂ : f s₂ = .next s₂) : AnsweredAlike f s₁ s₂ :=
  ⟨s₁, s₂, h₁, h₂, h, .refl s₁ s₂⟩

/-- The response of the two blocks to the record at the head of CMD. -/
theorem Indistinguishable.respond (c : Code) (v : Word) :
    Indistinguishable (respond c v s₁) (respond c v s₂) where
  seeded := h.seeded
  savedValid := h.savedValid
  seed := h.seed
  counter := h.counter
  saved := h.saved
  cmd := by simp [h.cmd]
  msg := h.msg
  time := h.time
  samples := (timeSeedings_tail_le _).trans h.samples

/-- A fault that both blocks answer (R142). -/
theorem Indistinguishable.faults {f : State → Host.Outcome State Fault Refusal} (c : Code)
    (h₁ : f s₁ = .next (raise c s₁)) (h₂ : f s₂ = .next (raise c s₂)) : AnsweredAlike f s₁ s₂ :=
  ⟨_, _, h₁, h₂, h.respond c 0, emittedAlike_respond c 0 [] rfl rfl (by simp) (by simp)⟩

/-- What a block has emitted is not part of what a command can tell. -/
theorem Indistinguishable.out_update (o₁ o₂ : List OutRecord) :
    Indistinguishable { s₁ with out := o₁ } { s₂ with out := o₂ } :=
  ⟨h.seeded, h.savedValid, h.seed, h.counter, h.saved, h.cmd, h.msg, h.time, h.samples⟩

variable (hs : s₁.seeded = true)
include hs

theorem Indistinguishable.seeded_right : s₂.seeded = true := h.seeded.trans hs

/-- Draws read SEED and COUNTER only, which two seeded blocks have in common (R107, R36). -/
theorem Indistinguishable.draws (n : Nat) :
    Indistinguishable (iterated advance n s₁) (iterated advance n s₂) := by
  obtain ⟨hseed, hcounter⟩ := iterated_advance_congr n s₁ s₂ (h.seed hs) (h.counter hs)
  exact {
    seeded := by simp [h.seeded]
    savedValid := by simp [h.savedValid]
    seed := fun _ => hseed
    counter := fun _ => hcounter
    saved := by simpa using h.saved
    cmd := by simp [h.cmd]
    msg := by simp [h.msg]
    time := by simp [h.time]
    samples := by simpa using h.samples }

/-- SAVE takes the snapshot from SEED (R100). -/
theorem save_answeredAlike : AnsweredAlike (exec .save) s₁ s₂ := by
  refine ⟨_, _, exec_save_of_seeded hs, exec_save_of_seeded (h.seeded_right hs),
    Indistinguishable.respond ?_ .ok 0, emittedAlike_respond _ _ [] rfl rfl (by simp) (by simp)⟩
  exact ⟨h.seeded, rfl, h.seed, h.counter, fun _ => h.seed hs, h.cmd, h.msg, h.time, h.samples⟩

/-- RESTORE takes SEED from the snapshot, or finds none in either block (R101, R136). -/
theorem restore_answeredAlike : AnsweredAlike (exec .restore) s₁ s₂ := by
  have hs₂ := h.seeded_right hs
  cases hv : s₁.savedValid with
  | false =>
    exact h.faults .invalidState (exec_restore_of_not_savedValid hs hv)
      (exec_restore_of_not_savedValid hs₂ (h.savedValid.trans hv))
  | true =>
    refine ⟨_, _, exec_restore_of_savedValid hs hv,
      exec_restore_of_savedValid hs₂ (h.savedValid.trans hv), Indistinguishable.respond ?_ .ok 0,
      emittedAlike_respond _ _ [] rfl rfl (by simp) (by simp)⟩
    exact ⟨h.seeded, h.savedValid, fun _ => h.saved hv, h.counter, h.saved, h.cmd, h.msg, h.time,
      h.samples⟩

/-- RANDINT finds the same fault in both blocks, or makes the same draw (R106). -/
theorem randInt_answeredAlike (a b : Int) : AnsweredAlike (exec (.randInt a b)) s₁ s₂ := by
  have hs₂ := h.seeded_right hs
  have htop : counterAtTop s₂ = counterAtTop s₁ := by rw [counterAtTop, h.counter hs, counterAtTop]
  by_cases hr : a > b
  · exact h.faults .invalidRange (exec_randInt_of_gt hs hr) (exec_randInt_of_gt hs₂ hr)
  · cases hc : counterAtTop s₁ with
    | true =>
      exact h.faults .counterOverflow (exec_randInt_of_counterAtTop hs hr hc)
        (exec_randInt_of_counterAtTop hs₂ hr (htop.trans hc))
    | false =>
      have hvalue : (draw a b s₂).1 = (draw a b s₁).1 := by
        rw [draw, (advance_congr s₁ s₂ (h.seed hs) (h.counter hs)).1, draw]
      refine ⟨_, _, exec_randInt_of_draw hs hr hc, exec_randInt_of_draw hs₂ hr (htop.trans hc), ?_⟩
      rw [hvalue]
      exact ⟨(h.draws hs 1).respond _ _, emittedAlike_respond _ _ [] rfl rfl (by simp) (by simp)⟩

/-- RANDBYTES makes as many items in both blocks, and the same ones (R126, R130). -/
theorem randBytes_answeredAlike (length : Nat) (d r : Bool) :
    AnsweredAlike (exec (.randBytes length d r)) s₁ s₂ := by
  have hs₂ := h.seeded_right hs
  have hcounter := h.counter hs
  rcases execRandBytes_cases length d r s₁ with ⟨hs', -⟩ | ⟨-, n, c, e₁, hn, hend⟩
  · simp [hs] at hs'
  rcases execRandBytes_cases length d r s₂ with ⟨hs', -⟩ | ⟨-, n', c', e₂, hn', hend'⟩
  · simp [hs₂] at hs'
  rw [hcounter] at hn' hend'
  obtain ⟨rfl, rfl⟩ : n' = n ∧ c' = c := by
    rcases hend with ⟨hl, rfl⟩ | ⟨hl, ht, rfl⟩ <;>
      rcases hend' with ⟨hl', rfl⟩ | ⟨hl', ht', rfl⟩
    · exact ⟨hl'.trans hl.symm, rfl⟩
    · omega
    · omega
    · exact ⟨by omega, rfl⟩
  rw [itemsOf_congr d (itemRange r) n' s₁ s₂ (h.seed hs) hcounter] at e₂
  exact ⟨_, _, e₁, e₂, ((h.draws hs n').out_update _ _).respond _ _,
    emittedAlike_respond _ _ _ (by simp) (by simp) rfl rfl⟩

omit hs in
/-- A command that needs a seeding: both blocks answer NotSeeded, or both are seeded (R139). -/
theorem Indistinguishable.of_seeded {i : Instr}
    (hi : i = .save ∨ i = .restore ∨ (∃ a b, i = .randInt a b) ∨ ∃ n d r, i = .randBytes n d r)
    (hseeded : s₁.seeded = true → AnsweredAlike (exec i) s₁ s₂) : AnsweredAlike (exec i) s₁ s₂ := by
  cases hs : s₁.seeded with
  | false =>
    exact h.faults .notSeeded (exec_of_unseeded hs hi) (exec_of_unseeded (h.seeded.trans hs) hi)
  | true => exact hseeded hs

omit hs in
/-- Every command keeps two blocks alike. -/
theorem exec_answeredAlike {r : CmdRecord} {rest : List CmdRecord} {i : Instr}
    (hc : s₁.cmd = r :: rest) (hd : decode r = .ok i) : AnsweredAlike (exec i) s₁ s₂ := by
  have seeding (hi : i = .seedT ∨ (∃ v, i = .seedI v) ∨ ∃ len, i = .seedS len) :
      AnsweredAlike (exec i) s₁ s₂ := by
    rcases seeding_waits_or_answeredAlike h.sameInputs hc hd hi with ⟨h₁, h₂⟩ | ha
    · exact h.waits h₁ h₂
    · exact ha
  cases i with
  | seedT => exact seeding (.inl rfl)
  | seedI v => exact seeding (.inr (.inl ⟨v, rfl⟩))
  | seedS len => exact seeding (.inr (.inr ⟨len, rfl⟩))
  | seedX => exact h.faults .invalidSeed rfl rfl
  | save => exact h.of_seeded (.inl rfl) (save_answeredAlike h)
  | restore => exact h.of_seeded (.inr (.inl rfl)) (restore_answeredAlike h)
  | randInt a b =>
    exact h.of_seeded (.inr (.inr (.inl ⟨a, b, rfl⟩))) fun hs => randInt_answeredAlike h hs a b
  | randBytes n d r =>
    exact h.of_seeded (.inr (.inr (.inr ⟨n, d, r, rfl⟩))) fun hs =>
      randBytes_answeredAlike h hs n d r

omit hs in
/-- Every step keeps two blocks alike: it is idle, answers an ILLEGAL record, or executes a
command. -/
theorem step_answeredAlike : AnsweredAlike step s₁ s₂ := by
  rcases step_cases s₁ with ⟨hc, e₁⟩ | ⟨r, rest, e, hc, hd, e₁⟩ | ⟨r, rest, i, hc, hd, e₁⟩
  · exact h.waits e₁ (step_of_cmd_nil s₂ (h.cmd.trans hc))
  · exact h.faults .illegalCommand e₁ (step_of_decode_error (h.cmd.trans hc) hd)
  · have e₂ : step s₂ = exec i s₂ := step_of_decode_ok (h.cmd.trans hc) hd
    rw [AnsweredAlike, e₁, e₂]
    exact exec_answeredAlike h hc hd

end pair

/-- Settles O55: the step lemma above, its two streams written out. -/
theorem indistinguishableBlocksStaySo : Obligations.IndistinguishableBlocksStaySo := by
  intro s₁ s₂ h
  obtain ⟨t₁, t₂, e₁, e₂, ht, ⟨responses, r₁, r₂⟩, items, x₁, x₂⟩ := step_answeredAlike h
  exact ⟨t₁, t₂, responses, items, e₁, e₂, ht, r₁, r₂, x₁, x₂⟩

/-! ### Runs (R97) -/

/-- Two blocks run for `n` steps and emit the same. -/
def RunAlike (n : Nat) (s₁ s₂ : State) : Prop :=
  ∃ t₁ t₂, core.run n s₁ = .next t₁ ∧ core.run n s₂ = .next t₂ ∧ EmittedAlike s₁ t₁ s₂ t₂

theorem runAlike_zero (s₁ s₂ : State) : RunAlike 0 s₁ s₂ := ⟨s₁, s₂, rfl, rfl, .refl s₁ s₂⟩

/-- A first step that emits the same in both blocks, and a run after it that does. -/
theorem RunAlike.succ {n : Nat} {s₁ s₂ t₁ t₂ : State} (h₁ : step s₁ = .next t₁)
    (h₂ : step s₂ = .next t₂) (he : EmittedAlike s₁ t₁ s₂ t₂) (hrun : RunAlike n t₁ t₂) :
    RunAlike (n + 1) s₁ s₂ := by
  obtain ⟨u₁, u₂, e₁, e₂, he'⟩ := hrun
  exact ⟨u₁, u₂, (run_succ_of_step n s₁ t₁ h₁).trans e₁, (run_succ_of_step n s₂ t₂ h₂).trans e₂,
    he.trans he'⟩

/-- Two blocks that wait do so for ever, as no input comes in a run (R161). -/
theorem runAlike_of_waits {s₁ s₂ : State} (h₁ : step s₁ = .next s₁) (h₂ : step s₂ = .next s₂)
    (n : Nat) : RunAlike n s₁ s₂ := by
  induction n with
  | zero => exact runAlike_zero s₁ s₂
  | succ n ih => exact ih.succ h₁ h₂ (.refl s₁ s₂)

theorem runAlike_of_indistinguishable {s₁ s₂ : State} (h : Indistinguishable s₁ s₂) (n : Nat) :
    RunAlike n s₁ s₂ := by
  induction n generalizing s₁ s₂ with
  | zero => exact runAlike_zero s₁ s₂
  | succ n ih =>
    obtain ⟨t₁, t₂, e₁, e₂, ht, he⟩ := step_answeredAlike h
    exact (ih ht).succ e₁ e₂ he

/-- R97: after a seeding two blocks with the same inputs run alike, whatever they held before it. -/
theorem runAlike_of_seeding {s₁ s₂ : State} {r : CmdRecord} {rest : List CmdRecord} {i : Instr}
    (h : SameInputs s₁ s₂) (hc : s₁.cmd = r :: rest) (hd : decode r = .ok i)
    (hi : i = .seedT ∨ (∃ v, i = .seedI v) ∨ ∃ len, i = .seedS len) (n : Nat) :
    RunAlike n s₁ s₂ := by
  have hstep₁ : step s₁ = exec i s₁ := step_of_decode_ok hc hd
  have hstep₂ : step s₂ = exec i s₂ := step_of_decode_ok (h.cmd.trans hc) hd
  rcases seeding_waits_or_answeredAlike h hc hd hi with ⟨e₁, e₂⟩ | ⟨t₁, t₂, e₁, e₂, ht, he⟩
  · exact runAlike_of_waits (hstep₁.trans e₁) (hstep₂.trans e₂) n
  · cases n with
    | zero => exact runAlike_zero s₁ s₂
    | succ n =>
      exact (runAlike_of_indistinguishable ht n).succ (hstep₁.trans e₁) (hstep₂.trans e₂) he

/-- Settles O23: the run lemma above, its two streams written out. -/
theorem seedingMakesReplayExact : Obligations.SeedingMakesReplayExact := by
  intro s₁ s₂ r rest i hc hcmd hmsg htime hsamples hd hi n
  obtain ⟨t₁, t₂, e₁, e₂, ⟨responses, r₁, r₂⟩, items, x₁, x₂⟩ :=
    runAlike_of_seeding ⟨hcmd, hmsg, htime, hsamples⟩ hc hd hi n
  exact ⟨t₁, t₂, responses, items, e₁, e₂, r₁, r₂, x₁, x₂⟩

end Sys2Proof.Machine
end

section
/-! The four statements of 42_snapshot.md: what SAVE and RESTORE each change (R100, R101), the two
together (R103), and a draw after RESTORE (R102). -/

namespace Sys2Proof.Machine

/-! ### SAVE and RESTORE (R100, R101) -/

/-- The response of a command that completes without a result (R70). -/
theorem rspRecord_ok_zero : rspRecord .ok 0 = 0x000000000#36 := by decide

/-- Settles O24: the outcome of a SAVE on a seeded block, its response written as a record. -/
theorem saveCopiesTheSeed : Obligations.SaveCopiesTheSeed := by
  intro s hs
  rw [exec_save_of_seeded hs, respond, rspRecord_ok_zero, flagsSaved]

/-- Settles O25: the outcome of a RESTORE with a snapshot, its response written as a record. -/
theorem restoreRewindsOnlyTheSeed : Obligations.RestoreRewindsOnlyTheSeed := by
  intro s hs hv
  rw [exec_restore_of_savedValid hs hv, respond, rspRecord_ok_zero]

section snapshot
variable {s t u : State}

theorem eq_of_exec_save (hs : s.seeded = true) (h : exec .save s = .next t) :
    t = respond .ok 0 (flagsSaved { s with saved := s.seed }) :=
  (Host.Outcome.next.inj ((exec_save_of_seeded hs).symm.trans h)).symm

theorem eq_of_exec_restore (hs : s.seeded = true) (hv : s.savedValid = true)
    (h : exec .restore s = .next t) : t = respond .ok 0 { s with seed := s.saved } :=
  (Host.Outcome.next.inj ((exec_restore_of_savedValid hs hv).symm.trans h)).symm

/-! ### A RESTORE of the seed the block already has (R103) -/

/-- Where SEED is already the snapshot, RESTORE changes only CMD and RSP. -/
theorem restore_of_seed_eq_saved (h : exec .restore s = .next t) (hs : s.seeded = true)
    (hv : s.savedValid = true) (heq : s.seed = s.saved) :
    SameRegisters s t ∧ t.msg = s.msg ∧ t.time = s.time ∧ t.out = s.out := by
  obtain rfl := eq_of_exec_restore hs hv h
  exact ⟨⟨rfl, rfl, heq.symm, rfl, rfl, rfl⟩, rfl, rfl, rfl⟩

/-- R103, its first sentence. -/
theorem restore_after_save (hs : s.seeded = true) (hsave : exec .save s = .next t)
    (hrestore : exec .restore t = .next u) :
    SameRegisters { s with saved := u.saved, savedValid := u.savedValid } u ∧
      u.msg = s.msg ∧ u.time = s.time ∧ u.out = s.out := by
  obtain rfl := eq_of_exec_save hs hsave
  obtain ⟨same, hports⟩ := restore_of_seed_eq_saved hrestore hs rfl rfl
  exact ⟨⟨same.seeded, rfl, same.seed, same.counter, rfl, same.incr⟩, hports⟩

/-- R103, its second sentence. -/
theorem restore_after_restore (hs : s.seeded = true) (hv : s.savedValid = true)
    (hfirst : exec .restore s = .next t) (hsecond : exec .restore t = .next u) :
    SameRegisters t u ∧ u.msg = t.msg ∧ u.time = t.time ∧ u.out = t.out := by
  obtain rfl := eq_of_exec_restore hs hv hfirst
  exact restore_of_seed_eq_saved hsecond hs hv rfl

/-! ### A draw after RESTORE (R102, R163) -/

/-- What a RANDINT that draws leaves in INCR and COUNTER (R107, R109, R111). -/
theorem randInt_incr_counter {a b : Int} (h : exec (.randInt a b) s = .next t)
    (hs : s.seeded = true) (hr : a ≤ b) (hc : s.counter.toNat < counterMax) :
    t.incr = crc32 (drawMessage s) ∧ t.counter.toNat = s.counter.toNat + 1 := by
  have htop : counterAtTop s = false := by
    rw [← Bool.not_eq_true, counterAtTop_iff]
    exact hc.ne
  rw [exec_randInt_of_draw hs hr.not_gt htop] at h
  cases h
  exact ⟨advance_incr s, advance_counter_toNat s hc.ne⟩

end snapshot

/-- Settles O27: in both sentences of R103 the last RESTORE finds SEED equal to the snapshot, after a
SAVE because SAVE copied it there, after a RESTORE because RESTORE copied it back. -/
theorem saveThenRestoreChangesOnlyTheSnapshot :
    Obligations.SaveThenRestoreChangesOnlyTheSnapshot :=
  ⟨fun _ _ _ => restore_after_save, fun _ _ _ => restore_after_restore⟩

/-- Settles O28: RESTORE leaves SEED the snapshot and COUNTER as it was, and the draw's message is
made of these two. -/
theorem drawAfterRestoreKeepsCounting : Obligations.DrawAfterRestoreKeepsCounting := by
  intro s t u min max hs hv hr hc hrestore hdraw
  obtain rfl := eq_of_exec_restore hs hv hrestore
  exact randInt_incr_counter hdraw hs hr hc

end Sys2Proof.Machine
end

section
/-! The ten statements of 43_integer_draw.md: the LCG step (R110), the rounding and the laws of the
output mapper (R113 to R116), and what RANDINT answers (R106, R107, R118, R168). -/

namespace Sys2Proof.Machine

/-! ### The LCG step (R110) -/

/-- The step in plain arithmetic, on the low half of SEED (R110). -/
theorem lcgStep_toNat_low (seed : SeedWord) (incr : Word) : (lcgStep seed incr).toNat =
    ((seed.extractLsb' 0 32).toNat * 1664525 + incr.toNat) % 2 ^ 32 := by
  have hmult : mult.toNat = 1664525 := by decide
  rw [lcgStep, BitVec.toNat_setWidth_of_le (by decide), BitVec.toNat_add, BitVec.toNat_mul, hmult,
    BitVec.setWidth_eq_extractLsb' (by decide), Nat.mod_add_mod, Nat.mul_comm]

/-- The step in plain arithmetic, on the whole of SEED, whose high half does not matter (R110). -/
theorem lcgStep_toNat (seed : SeedWord) (incr : Word) :
    (lcgStep seed incr).toNat = (seed.toNat * 1664525 + incr.toNat) % 2 ^ 32 := by
  rw [lcgStep_toNat_low, BitVec.extractLsb'_toNat, Nat.shiftRight_zero]
  omega

/-- Settles O37: the two equations and `lcgStep_lt`; a draw is the step with its own INCR; the
examples are evaluated. -/
theorem lcgStepIsModuloTwoToThe32 : Obligations.LcgStepIsModuloTwoToThe32 :=
  ⟨fun seed incr => ⟨lcgStep_toNat seed incr, lcgStep_toNat_low seed incr, lcgStep_lt seed incr⟩,
    fun s => lcgStep_toNat s.seed (crc32 (drawMessage s)), by decide, by decide⟩

/-! ### Rounding to 53 significant bits (R114) -/

theorem representable_mul_pow {m : Nat} (hm : m < 2 ^ 53) (k : Nat) : representable (m * 2 ^ k) :=
  ⟨m, k, hm, rfl⟩

/-- Above 2^52 units of 2^e the representable numbers are at least 2^e apart. -/
theorem le_or_ge_of_representable {q v : Nat} (e : Nat) (hq : 2 ^ 52 ≤ q) (hv : representable v) :
    v ≤ q * 2 ^ e ∨ q * 2 ^ e + 2 ^ e ≤ v := by
  obtain ⟨m, k, hm, rfl⟩ := hv
  rcases Nat.lt_or_ge k e with hk | hk
  · obtain ⟨j, rfl⟩ := Nat.exists_eq_add_of_lt hk
    left
    calc m * 2 ^ k ≤ 2 ^ 53 * 2 ^ k := Nat.mul_le_mul_right _ hm.le
      _ = 2 ^ 52 * 2 ^ (k + 1) := by ring
      _ ≤ q * 2 ^ (k + j + 1) := Nat.mul_le_mul hq (Nat.pow_le_pow_right (by decide) (by omega))
  · obtain ⟨j, rfl⟩ := Nat.exists_eq_add_of_le hk
    have hmul : m * 2 ^ (e + j) = m * 2 ^ j * 2 ^ e := by ring
    rw [hmul, ← Nat.succ_mul]
    rcases Nat.lt_or_ge q (m * 2 ^ j) with h | h
    · exact .inr (Nat.mul_le_mul_right _ h)
    · exact .inl (Nat.mul_le_mul_right _ h)

/-- The carry of R114, "q = 2^53 is possible and fine": it moves to the exponent, and the
significand is even before and after it. -/
theorem exists_significand {m : Nat} (e : Nat) (hlo : 2 ^ 52 ≤ m) (hhi : m ≤ 2 ^ 53) :
    ∃ m' k, 2 ^ 52 ≤ m' ∧ m' < 2 ^ 53 ∧ (m % 2 = 0 → m' % 2 = 0) ∧ m * 2 ^ e = m' * 2 ^ k := by
  rcases Nat.lt_or_eq_of_le hhi with h | rfl
  · exact ⟨m, e, hlo, h, id, rfl⟩
  · exact ⟨2 ^ 52, e + 1, by decide, by decide, fun _ => by decide, by ring⟩

/-- Of a number that needs rounding, `rn53` gives a nearest of the representable numbers, and an
even significand if another is as near (R114). -/
theorem rn53_nearest_of_ge {p : Nat} (h : 2 ^ 53 ≤ p) :
    ∃ m e, 2 ^ 52 ≤ m ∧ m ≤ 2 ^ 53 ∧ rn53 p = m * 2 ^ e ∧
      ∀ v, representable v → distance (rn53 p) p ≤ distance v p ∧
        (v ≠ rn53 p → distance v p = distance (rn53 p) p → m % 2 = 0) := by
  obtain ⟨e, q, r, -, hp, hr, hlo, hhi, hrn⟩ := rn53_of_ge p h
  split at hrn
  case isTrue hup =>
    refine ⟨q + 1, e, by omega, hhi, hrn, fun v hv => ?_⟩
    have hgap := le_or_ge_of_representable e hlo hv
    rw [hrn, hp, Nat.succ_mul]
    simp only [distance]
    omega
  case isFalse hdown =>
    refine ⟨q, e, hlo, hhi.le, hrn, fun v hv => ?_⟩
    have hgap := le_or_ge_of_representable e hlo hv
    rw [hrn, hp]
    simp only [distance]
    omega

theorem representable_rn53 (p : Nat) : representable (rn53 p) := by
  rcases Nat.lt_or_ge p (2 ^ 53) with h | h
  · rw [rn53_of_lt p h]
    exact ⟨p, 0, h, (Nat.mul_one p).symm⟩
  · obtain ⟨m, e, hlo, hhi, hrn, -⟩ := rn53_nearest_of_ge h
    obtain ⟨m', k, -, hm', -, heq⟩ := exists_significand e hlo hhi
    exact ⟨m', k, hm', hrn.trans heq⟩

/-- No representable number is nearer (R114). -/
theorem rn53_nearest (p : Nat) {v : Nat} (hv : representable v) :
    distance (rn53 p) p ≤ distance v p := by
  rcases Nat.lt_or_ge p (2 ^ 53) with h | h
  · rw [rn53_of_lt p h]
    simp [distance]
  · obtain ⟨m, e, -, -, -, hnear⟩ := rn53_nearest_of_ge h
    exact (hnear v hv).1

/-- A tie goes to the even 53rd bit (R114). -/
theorem rn53_even_of_tie {p v : Nat} (hv : representable v) (hne : v ≠ rn53 p)
    (htie : distance v p = distance (rn53 p) p) :
    ∃ m k, 2 ^ 52 ≤ m ∧ m < 2 ^ 53 ∧ m % 2 = 0 ∧ rn53 p = m * 2 ^ k := by
  rcases Nat.lt_or_ge p (2 ^ 53) with h | h
  · rw [rn53_of_lt p h] at hne htie
    simp only [distance] at htie
    omega
  · obtain ⟨m, e, hlo, hhi, hrn, hnear⟩ := rn53_nearest_of_ge h
    obtain ⟨m', k, hlo', hhi', heven, heq⟩ := exists_significand e hlo hhi
    exact ⟨m', k, hlo', hhi', heven ((hnear v hv).2 hne htie), hrn.trans heq⟩

/-- Settles O50, for every number, one lemma per clause. -/
theorem roundingIsToNearestEven : Obligations.RoundingIsToNearestEven :=
  fun p _ => ⟨representable_rn53 p, fun _ hv => rn53_nearest p hv, fun _ hv => rn53_even_of_tie hv⟩

/-! Two consequences of nearness alone carry the laws of the mapper. -/

/-- A representable number is not moved. -/
theorem rn53_of_representable {p : Nat} (hp : representable p) : rn53 p = p := by
  have h := rn53_nearest p hp
  simp only [distance] at h
  omega

/-- If the results were in the other order, each would be at least as near to the other's
argument. -/
theorem rn53_mono {a b : Nat} (hab : a ≤ b) : rn53 a ≤ rn53 b := by
  have ha := rn53_nearest a (representable_rn53 b)
  have hb := rn53_nearest b (representable_rn53 a)
  rcases Nat.eq_or_lt_of_le hab with rfl | hlt
  · exact Nat.le_refl _
  · simp only [distance] at ha hb
    omega

/-! ### The laws of the mapper (R115, R116) -/

/-- The span of a nonempty range (R113). -/
theorem span_cast {min max : Int} (hr : min ≤ max) : (span min max : Int) = max - min + 1 :=
  Int.toNat_of_nonneg (by omega)

theorem fitsSigned_word_iff (v : Int) : fitsSigned 32 v = true ↔ -2 ^ 31 ≤ v ∧ v < 2 ^ 31 :=
  decide_eq_true_iff

/-- The operands of an encodable RANDINT are 32-bit signed values (R58). -/
theorem randInt_wellFormed_iff (min max : Int) : (Instr.randInt min max).wellFormed = true ↔
    fitsSigned 32 min = true ∧ fitsSigned 32 max = true :=
  Bool.and_eq_true_iff

/-- A range of 32-bit signed values has at most 2^32 members (R113). -/
theorem span_le {min max : Int} (hw : (Instr.randInt min max).wellFormed = true) :
    span min max ≤ 2 ^ 32 := by
  rw [randInt_wellFormed_iff, fitsSigned_word_iff, fitsSigned_word_iff] at hw
  simp only [span]
  omega

/-- Without rounding the mapper is integer scaling (R115). -/
theorem outmap_of_representable {s : Nat} {min max : Int}
    (hp : representable (s * span min max)) :
    outmap s min max = ((s * span min max / 2 ^ 32 : Nat) : Int) + min := by
  rw [outmap_eq, rn53_of_representable hp]

/-- For spans up to 2^21 nothing is rounded (R115). -/
theorem outmap_of_small_span {s : Nat} {min max : Int} (hs : s < 2 ^ 32)
    (hn : span min max ≤ 2 ^ 21) :
    outmap s min max = ((s * span min max / 2 ^ 32 : Nat) : Int) + min := by
  have hp : s * span min max < 2 ^ 53 :=
    calc s * span min max ≤ s * 2 ^ 21 := Nat.mul_le_mul_left s hn
      _ < 2 ^ 53 := by omega
  rw [outmap_eq, rn53_of_lt _ hp]

/-- Settles O54: the span is a natural number, and nothing is rounded. -/
theorem smallSpansAreMappedExactly : Obligations.SmallSpansAreMappedExactly := by
  intro s min max hs hr hn
  rw [← span_cast hr] at hn ⊢
  rw [outmap_of_small_span hs (by omega)]
  push_cast
  rfl

/-- Settles O52: multiplying by the span, rounding and shifting are each monotone. -/
theorem mappedValuesAreMonotone : Obligations.MappedValuesAreMonotone := by
  intro a b min max hab _ _ _
  have hround : rn53 (a * span min max) ≤ rn53 (b * span min max) :=
    rn53_mono (Nat.mul_le_mul_right _ hab)
  have hscale := Nat.div_le_div_right (c := 2 ^ 32) hround
  rw [outmap_eq, outmap_eq]
  omega

/-- The upper bound of R116 a: rounding does not reach n * 2^32. A span above 2^11 has the
representable number n * 2^32 - 2^11 between; a smaller one is not rounded. -/
theorem rn53_mul_lt {s n : Nat} (hs : s < 2 ^ 32) (hpos : 0 < n) (hn : n ≤ 2 ^ 32) :
    rn53 (s * n) < n * 2 ^ 32 := by
  have hp : s * n ≤ n * 2 ^ 32 - n := by
    rw [← Nat.mul_sub_one, Nat.mul_comm]
    exact Nat.mul_le_mul_left n (by omega)
  rcases Nat.lt_or_ge n (2 ^ 11) with hsmall | hlarge
  · rw [rn53_of_lt _ (by omega)]
    omega
  · have hbelow : representable ((n * 2 ^ 21 - 1) * 2 ^ 11) := representable_mul_pow (by omega) 11
    calc rn53 (s * n) ≤ rn53 ((n * 2 ^ 21 - 1) * 2 ^ 11) := rn53_mono (by omega)
      _ = (n * 2 ^ 21 - 1) * 2 ^ 11 := rn53_of_representable hbelow
      _ < n * 2 ^ 32 := by omega

/-- R116 a. -/
theorem outmap_mem_range {s : Nat} {min max : Int} (hs : s < 2 ^ 32)
    (hw : (Instr.randInt min max).wellFormed = true) (hr : min ≤ max) :
    min ≤ outmap s min max ∧ outmap s min max ≤ max := by
  have hspan := span_cast hr
  have hscaled : rn53 (s * span min max) / 2 ^ 32 < span min max :=
    (Nat.div_lt_iff_lt_mul (by decide)).2 (rn53_mul_lt hs (by omega) (span_le hw))
  rw [outmap_eq]
  omega

/-- Settles O51: `outmap_mem_range`, in which the scaled value is below the span. -/
theorem mappedValuesStayInTheRange : Obligations.MappedValuesStayInTheRange :=
  fun _ _ _ => outmap_mem_range

/-- R116 c, its first clause. -/
theorem outmap_zero (min max : Int) : outmap 0 min max = min := by
  rw [outmap_eq, Nat.zero_mul, rn53_of_lt 0 (by decide), Nat.zero_div, Int.natCast_zero, zero_add]

/-- R116 c, its second clause: the span is 1. -/
theorem outmap_self {s : Nat} (hs : s < 2 ^ 32) (m : Int) : outmap s m m = m := by
  have hspan : span m m = 1 := by simp [span]
  rw [outmap_of_small_span hs (by omega), hspan]
  omega

/-- R116 d. -/
theorem outmap_byte {s : Nat} (hs : s < 2 ^ 32) : outmap s 0 255 = (s / 2 ^ 24 : Nat) := by
  have hspan : span 0 255 = 2 ^ 8 := by decide
  rw [outmap_of_small_span hs (by omega), hspan]
  omega

/-- R116 e. -/
theorem outmap_printable {s : Nat} (hs : s < 2 ^ 32) :
    outmap s 32 126 = ((s * 95 / 2 ^ 32 : Nat) : Int) + 32 := by
  have hspan : span 32 126 = 95 := by decide
  rw [outmap_of_small_span hs (by omega), hspan]

/-- R116 f: the product is the seed followed by 32 zeros, which needs no rounding. -/
theorem outmap_full {s : Nat} (hs : s < 2 ^ 32) :
    outmap s (-(2 ^ 31)) (2 ^ 31 - 1) = s - 2 ^ 31 := by
  have hspan : span (-(2 ^ 31)) (2 ^ 31 - 1) = 2 ^ 32 := by decide
  have hexact : representable (s * span (-(2 ^ 31)) (2 ^ 31 - 1)) :=
    hspan ▸ representable_mul_pow (by omega) 32
  rw [outmap_of_representable hexact, hspan, Nat.mul_div_cancel _ (by decide)]
  rfl

/-- Settles O53, one lemma per range. -/
theorem mappedValuesOnTheNamedRanges : Obligations.MappedValuesOnTheNamedRanges :=
  fun _ hs => ⟨outmap_zero, outmap_self hs, outmap_byte hs, outmap_printable hs, outmap_full hs⟩

/-! ### RANDINT with a draw left (R106, R107) -/

theorem advance_seed_lt (s : State) : (advance s).seed.toNat < 2 ^ 32 := lcgStep_lt _ _

/-- The mapper's argument, the low half of SEED, is all of SEED after a draw (R107, R110). -/
theorem advance_seed_low (s : State) :
    ((advance s).seed.setWidth 32).toNat = (advance s).seed.toNat := by
  rw [BitVec.toNat_setWidth, Nat.mod_eq_of_lt (advance_seed_lt s)]

/-- The outcome of a RANDINT that draws (R106, R107). -/
theorem exec_randInt_of_lt {min max : Int} {s : State} (hs : s.seeded = true) (hr : min ≤ max)
    (hc : s.counter.toNat < 2 ^ 64 - 1) : exec (.randInt min max) s = .next (respond .ok
      (BitVec.ofInt 32 (outmap (advance s).seed.toNat min max)) (advance s)) := by
  have htop : counterAtTop s = false := by
    rw [← Bool.not_eq_true, counterAtTop_iff]
    exact hc.ne
  rw [exec_randInt_of_draw hs hr.not_gt htop, draw, advance_seed_low]

/-- Settles O30: SEED and COUNTER of `advance` as numbers, in the outcome of a RANDINT that
draws. -/
theorem randIntPerformsOneDraw : Obligations.RandIntPerformsOneDraw := by
  intro min max s _ hs hr hc
  have hseed : (advance s).seed.toNat =
      (s.seed.toNat * 1664525 + (crc32 (drawMessage s)).toNat) % 2 ^ 32 := lcgStep_toNat _ _
  have hcounter : BitVec.ofNat 64 (s.counter.toNat + 1) = s.counter + 1 := by
    rw [BitVec.ofNat_add, BitVec.ofNat_toNat, BitVec.setWidth_eq]
    rfl
  refine ⟨crc32 (drawMessage s), (advance s).seed.toNat, rfl, hseed, ?_⟩
  rw [exec_randInt_of_lt hs hr hc, hcounter, BitVec.ofNat_toNat, BitVec.setWidth_eq]
  rfl

/-- A 32-bit signed value is read back from VALUE as it was (R70). -/
theorem value_toInt {v : Int} (h : fitsSigned 32 v = true) : (BitVec.ofInt 32 v).toInt = v :=
  toInt_ofInt_of_fitsSigned 32 v (by decide) h

/-- Settles O36: the outcome of a RANDINT that draws, its result by R116 f and R116 d. -/
theorem answersRevealTheSeed : Obligations.AnswersRevealTheSeed := by
  intro s hs hc
  have hlt := advance_seed_lt s
  refine ⟨⟨_, _, exec_randInt_of_lt hs (by decide) hc, rfl, ?full⟩,
    ⟨_, _, exec_randInt_of_lt hs (by decide) hc, rfl, ?byte⟩⟩
  case full =>
    rw [respond_seed, outmap_full hlt, value_toInt ((fitsSigned_word_iff _).2 (by omega))]
    omega
  case byte =>
    rw [respond_seed, outmap_byte hlt, BitVec.ofInt_natCast, BitVec.toNat_ofNat]
    omega

/-! ### RANDINT in every state (R106, R118) -/

section randInt
variable {s t u : State} {min max : Int} {x : RspRecord}

/-- The response of a RANDINT, for each of its four outcomes (R106). -/
theorem randInt_response (h : exec (.randInt min max) s = .next t) (hx : t.rsp = s.rsp ++ [x]) :
    (s.seeded = false ∧ x = rspRecord .notSeeded 0) ∨
    (min > max ∧ x = rspRecord .invalidRange 0) ∨
    (s.counter.toNat = counterMax ∧ x = rspRecord .counterOverflow 0) ∨
    (min ≤ max ∧
      x = rspRecord .ok (BitVec.ofInt 32 (outmap (advance s).seed.toNat min max))) := by
  have last_eq {y : RspRecord} (h : s.rsp ++ [y] = s.rsp ++ [x]) : x = y :=
    (List.singleton_inj.1 (List.append_cancel_left h)).symm
  rcases execRandInt_cases min max s with ⟨hs, e⟩ | ⟨-, hr, e⟩ | ⟨-, -, hc, e⟩ | ⟨-, hr, -, e⟩ <;>
    cases e.symm.trans h
  · exact .inl ⟨hs, last_eq hx⟩
  · exact .inr (.inl ⟨hr, last_eq hx⟩)
  · exact .inr (.inr (.inl ⟨hc, last_eq hx⟩))
  · rw [advance_seed_low] at hx
    exact .inr (.inr (.inr ⟨hr, last_eq hx⟩))

/-- A response with CODE 0 holds the mapped value of a range that is not empty (R106, R107). -/
theorem randInt_response_of_ok (h : exec (.randInt min max) s = .next t)
    (hx : t.rsp = s.rsp ++ [x]) (hok : rspCode x = 0#4) :
    min ≤ max ∧ rspValue x = BitVec.ofInt 32 (outmap (advance s).seed.toNat min max) := by
  rcases randInt_response h hx with ⟨-, rfl⟩ | ⟨-, rfl⟩ | ⟨-, rfl⟩ | ⟨hr, rfl⟩
  · exact absurd hok (by decide)
  · exact absurd hok (by decide)
  · exact absurd hok (by decide)
  · exact ⟨hr, rspValue_rspRecord _ _⟩

/-- Only an empty range is answered with InvalidRange (R118). -/
theorem randInt_code_ne_invalidRange (h : exec (.randInt min max) s = .next t)
    (hx : t.rsp = s.rsp ++ [x]) (hr : min ≤ max) : rspCode x ≠ codeBits .invalidRange := by
  rcases randInt_response h hx with ⟨-, rfl⟩ | ⟨hgt, -⟩ | ⟨-, rfl⟩ | ⟨-, rfl⟩
  · decide
  · exact absurd hr hgt.not_ge
  · decide
  · rw [rspCode_rspRecord]
    decide

/-! A RANDINT reads and writes the registers alike, whatever the ports hold (R36). -/

theorem SameRegisters.respond (h : SameRegisters s u) (c : Code) (v : Word) :
    SameRegisters (respond c v s) (respond c v u) :=
  ⟨h.seeded, h.savedValid, h.seed, h.counter, h.saved, h.incr⟩

theorem SameRegisters.advance (h : SameRegisters s u) :
    SameRegisters (advance s) (advance u) := by
  obtain ⟨hseed, hcounter⟩ := advance_congr s u h.seed h.counter
  refine ⟨h.seeded, h.savedValid, hseed, hcounter, h.saved, ?incr⟩
  rw [advance_incr, drawMessage, h.seed, h.counter, advance_incr, drawMessage]

theorem randInt_of_sameRegisters (hsame : SameRegisters s u)
    (h : exec (.randInt min max) s = .next t) :
    ∃ w x, exec (.randInt min max) u = .next w ∧ SameRegisters t w ∧
      t.rsp = s.rsp ++ [x] ∧ w.rsp = u.rsp ++ [x] := by
  have hseeded {b : Bool} (hs : s.seeded = b) : u.seeded = b := hsame.seeded.trans hs
  rcases execRandInt_cases min max s with
    ⟨hs, e⟩ | ⟨hs, hr, e⟩ | ⟨hs, hr, hc, e⟩ | ⟨hs, hr, hc, e⟩ <;>
    cases e.symm.trans h
  · exact ⟨_, _, exec_of_unseeded (hseeded hs) (.inr (.inr (.inl ⟨min, max, rfl⟩))),
      hsame.respond .notSeeded 0, rfl, rfl⟩
  · exact ⟨_, _, exec_randInt_of_gt (hseeded hs) hr, hsame.respond .invalidRange 0, rfl, rfl⟩
  · rw [← hsame.counter, ← counterAtTop_iff] at hc
    exact ⟨_, _, exec_randInt_of_counterAtTop (hseeded hs) hr.not_gt hc,
      hsame.respond .counterOverflow 0, rfl, rfl⟩
  · rw [← hsame.counter] at hc
    have hlt : u.counter.toNat < 2 ^ 64 - 1 := lt_of_le_of_ne (counter_le_max u) hc
    have hdraw := exec_randInt_of_lt (hseeded hs) hr hlt
    rw [hsame.advance.seed, ← advance_seed_low] at hdraw
    exact ⟨_, _, hdraw, hsame.advance.respond .ok _, rfl, rfl⟩

end randInt

theorem sameRegisters_faultState (code : BitVec 4) (s : State) :
    SameRegisters s (faultState code s) :=
  ⟨rfl, rfl, rfl, rfl, rfl, rfl⟩

/-- Settles O31: the fault leaves the registers, and they are all that a later RANDINT reads. -/
theorem randIntRefusesAnEmptyRange : Obligations.RandIntRefusesAnEmptyRange := by
  exact ⟨fun min max s hs hr => ⟨exec_randInt_of_gt hs hr, sameRegisters_faultState 3 s⟩,
    fun min max a b s t _ _ h => randInt_of_sameRegisters (sameRegisters_faultState 3 s) h,
    fun s hs => exec_randInt_of_gt hs (by decide),
    fun s t x _ h hx => randInt_code_ne_invalidRange h hx (by decide)⟩

/-- Settles O34: an answer with CODE 0 is a mapped value, so it is in the range (R116 a) and fits
VALUE. -/
theorem randIntAnswersInTheRange : Obligations.RandIntAnswersInTheRange := by
  intro min max s t x hw h hx hok
  obtain ⟨hr, hvalue⟩ := randInt_response_of_ok h hx hok
  rw [rspValue] at hvalue
  obtain ⟨hlo, hhi⟩ := outmap_mem_range (advance_seed_lt s) hw hr
  obtain ⟨hmin, hmax⟩ := (randInt_wellFormed_iff min max).1 hw
  rw [fitsSigned_word_iff] at hmin hmax
  rw [hvalue, value_toInt ((fitsSigned_word_iff _).2 (by omega))]
  exact ⟨hlo, hhi⟩

end Sys2Proof.Machine
end

section
/-! The five statements of 44_byte_draw.md: the outcome of a RANDBYTES with its items (R126, R128,
R130), the same draws made in other commands (R127), and readable items (R129). -/

namespace Sys2Proof.Machine

/-! ### Draws and items, one and many (R107, R126) -/

theorem SameRegisters.trans {s t u : State} (h : SameRegisters s t) (h' : SameRegisters t u) :
    SameRegisters s u where
  seeded := h'.seeded.trans h.seeded
  savedValid := h'.savedValid.trans h.savedValid
  seed := h'.seed.trans h.seed
  counter := h'.counter.trans h.counter
  saved := h'.saved.trans h.saved
  incr := h'.incr.trans h.incr

theorem SameRegisters.symm {s t : State} (h : SameRegisters s t) : SameRegisters t s :=
  ⟨h.seeded.symm, h.savedValid.symm, h.seed.symm, h.counter.symm, h.saved.symm, h.incr.symm⟩

theorem sameRegisters_respond (c : Code) (v : Word) (s : State) :
    SameRegisters s (respond c v s) :=
  ⟨rfl, rfl, rfl, rfl, rfl, rfl⟩

theorem sameRegisters_iterated_advance {s t : State} (h : SameRegisters s t) (n : Nat) :
    SameRegisters (iterated advance n s) (iterated advance n t) := by
  induction n generalizing s t with
  | zero => exact h
  | succ n ih => exact ih h.advance

/-- The items of `m + n` draws are those of `m` draws and then those of the next `n` (R126). -/
theorem itemsOf_add (fmt : Bool) (range : Int × Int) (m n : Nat) (s : State) :
    itemsOf fmt range (m + n) s =
      itemsOf fmt range m s ++ itemsOf fmt range n (iterated advance m s) := by
  simp only [itemsOf, List.range_add, List.map_append, List.map_map, Function.comp_def,
    iterated_add]

theorem itemRange_eq (r : Bool) :
    itemRange r = (if r then 32 else 0, if r then 126 else 255) := by
  cases r <;> rfl

theorem itemRange_le (r : Bool) : (itemRange r).1 ≤ (itemRange r).2 := by
  cases r <;> decide

/-- The items of a RANDBYTES with the numbers of its range, item k from SEED after draw k (R126,
R128). -/
theorem itemsOf_itemRange (d r : Bool) (n : Nat) (s : State) :
    itemsOf d (itemRange r) n s = (List.range n).map fun k =>
      (BitVec.ofBool d ++ BitVec.ofInt 8
        (outmap ((iterated advance (k + 1) s).seed.setWidth 32).toNat
          (if r then 32 else 0) (if r then 126 else 255)) : BitVec (1 + 8)) := by
  refine List.map_congr_left fun k _ => ?_
  rw [itemOf, iterated_succ, itemRange_eq]
  rfl

/-- The response after `n` draws and their items, as one update of the drawn state (R17, R70). -/
theorem respond_iterated_advance (c : Code) (v : Word) (items : List OutRecord) (n : Nat)
    (s : State) : respond c v { iterated advance n s with out := items } =
      { iterated advance n s with
        out := items
        rsp := s.rsp ++ [rspRecord c v]
        cmd := s.cmd.tail } := by
  rw [respond, iterated_advance_rsp, iterated_advance_cmd]

/-! ### The outcome of a RANDBYTES on a seeded block (R126, R130) -/

section seeded
variable {s : State} (hs : s.seeded = true) (d r : Bool)
include hs

/-- All items are made where COUNTER admits the draws (R126). -/
theorem exec_randBytes_of_le {length : Nat} (hc : s.counter.toNat + length ≤ counterMax) :
    exec (.randBytes length d r) s = .next (respond .ok (BitVec.ofNat 32 length)
      { iterated advance length s with out := s.out ++ itemsOf d (itemRange r) length s }) := by
  rcases execRandBytes_cases length d r s with ⟨hs', -⟩ | ⟨-, n, c, e, -, hend⟩
  · exact absurd (hs.symm.trans hs') (by decide)
  · rcases hend with ⟨rfl, rfl⟩ | ⟨hlt, htop, -⟩
    · exact e
    · omega

/-- Only the items before the top of COUNTER are made where it does not (R130). -/
theorem exec_randBytes_of_lt {i length : Nat} (hc : s.counter.toNat + i = counterMax)
    (hi : i < length) :
    exec (.randBytes length d r) s = .next (respond .counterOverflow (BitVec.ofNat 32 i)
      { iterated advance i s with out := s.out ++ itemsOf d (itemRange r) i s }) := by
  rcases execRandBytes_cases length d r s with ⟨hs', -⟩ | ⟨-, n, c, e, hn, hend⟩
  · exact absurd (hs.symm.trans hs') (by decide)
  · rcases hend with ⟨rfl, -⟩ | ⟨-, htop, rfl⟩
    · omega
    · obtain rfl : n = i := by omega
      exact e

end seeded

/-- What a completed RANDBYTES leaves in the registers and on OUT (R126). -/
theorem randBytes_draws {length : Nat} {d r : Bool} {s t : State} (hs : s.seeded = true)
    (hc : s.counter.toNat + length ≤ counterMax) (h : exec (.randBytes length d r) s = .next t) :
    SameRegisters (iterated advance length s) t ∧
      t.out = s.out ++ itemsOf d (itemRange r) length s := by
  cases (exec_randBytes_of_le hs d r hc).symm.trans h
  exact ⟨⟨rfl, rfl, rfl, rfl, rfl, rfl⟩, rfl⟩

/-- Settles O38: the outcome where COUNTER admits the draws, its state written out. -/
theorem randBytesEmitsOneItemPerDraw : Obligations.RandBytesEmitsOneItemPerDraw := by
  intro length d r s hs _ hc
  rw [exec_randBytes_of_le hs d r hc, itemsOf_itemRange, respond_iterated_advance]
  rfl

/-- Settles O39: the outcome where COUNTER reaches its top before item i, its state written out. -/
theorem randBytesKeepsItsItemsOnOverflow : Obligations.RandBytesKeepsItsItemsOnOverflow := by
  intro i length d r s hs _ hc hi
  rw [exec_randBytes_of_lt hs d r hc hi, itemsOf_itemRange, respond_iterated_advance]
  rfl

/-! ### The same draws made by RANDINT (R127) -/

/-- VALUE and DATA hold the low bits of one result (R71, R128). -/
theorem data_of_value (v : Int) : (BitVec.ofInt 32 v).extractLsb' 0 8 = BitVec.ofInt 8 v := by
  apply BitVec.eq_of_toNat_eq
  rw [BitVec.extractLsb'_toNat, BitVec.toNat_ofInt, BitVec.toNat_ofInt, Nat.shiftRight_zero]
  omega

/-- The item of a draw has the result of a RANDINT from the same state as its DATA (R127). -/
theorem outRecord_value (fmt : Bool) (range : Int × Int) (s : State) :
    outRecord fmt ((BitVec.ofInt 32
      (outmap (advance s).seed.toNat range.1 range.2)).extractLsb' 0 8) = itemOf fmt range s := by
  rw [data_of_value, itemOf, advance_seed_low]

/-- As many RANDINT commands as COUNTER admits draws leave the registers of that many draws, and their
answers are the DATA of the items the draws would make (R127). -/
theorem exists_randIntRun (fmt : Bool) {range : Int × Int} (hr : range.1 ≤ range.2) (n : Nat)
    {s : State} (hs : s.seeded = true) (hc : s.counter.toNat + n ≤ counterMax) :
    ∃ values u, values.length = n ∧ RandIntRun range.1 range.2 s values u ∧
      SameRegisters (iterated advance n s) u ∧
      values.map (fun v => outRecord fmt (v.extractLsb' 0 8)) = itemsOf fmt range n s := by
  induction n generalizing s with
  | zero => exact ⟨[], s, rfl, .done s, ⟨rfl, rfl, rfl, rfl, rfl, rfl⟩, rfl⟩
  | succ n ih =>
    have hlt : s.counter.toNat < counterMax := by omega
    have hcounter := advance_counter_toNat s hlt.ne
    have hfirst := exec_randInt_of_lt hs hr hlt
    generalize hv : BitVec.ofInt 32 (outmap (advance s).seed.toNat range.1 range.2) = v at hfirst
    have hresp := sameRegisters_respond .ok v (advance s)
    obtain ⟨values, u, hlength, hrun, hsame, hitems⟩ := ih (s := respond .ok v (advance s)) hs
      (by rw [respond_counter, hcounter]; omega)
    refine ⟨v :: values, u, congrArg (· + 1) hlength, .more s _ u v values hfirst rfl hrun,
      (sameRegisters_iterated_advance hresp n).trans hsame, ?items⟩
    rw [itemsOf_congr fmt range n (advance s) _ hresp.seed hresp.counter] at hitems
    rw [List.map_cons, hitems, ← hv, outRecord_value, itemsOf_succ]

/-- Settles O40: both the RANDINT commands and the RANDBYTES leave the registers of LENGTH draws. -/
theorem randBytesIsSuccessiveRandInts : Obligations.RandBytesIsSuccessiveRandInts := by
  intro length d r s hs _ hc
  obtain ⟨values, u, hlength, hrun, hsame, hitems⟩ :=
    exists_randIntRun d (itemRange_le r) length hs hc
  have hexec := exec_randBytes_of_le hs d r hc
  obtain ⟨hregs, hout⟩ := randBytes_draws hs hc hexec
  rw [itemRange_eq] at hrun
  exact ⟨values, u, _, hlength, hrun, hexec, hsame.symm.trans hregs,
    hout.trans (congrArg (s.out ++ ·) hitems.symm)⟩

/-! ### The same draws made by two RANDBYTES (R127) -/

/-- Settles O41: the second command draws on from the registers the first one left. -/
theorem randBytesLengthsAdd : Obligations.RandBytesLengthsAdd := by
  intro a b d r s t u w hs hc hfirst hsecond hboth
  have hca : s.counter.toNat + a ≤ counterMax := by rw [counterMax_eq]; omega
  obtain ⟨hregsT, houtT⟩ := randBytes_draws hs hca hfirst
  have hst : t.seeded = true := by rw [hregsT.seeded, iterated_advance_seeded, hs]
  have hcb : t.counter.toNat + b ≤ counterMax := by
    rw [hregsT.counter, iterated_advance_counter_toNat hca, counterMax_eq]
    omega
  obtain ⟨hregsU, houtU⟩ := randBytes_draws hst hcb hsecond
  obtain ⟨hregsW, houtW⟩ := randBytes_draws hs hc hboth
  rw [iterated_add] at hregsW
  rw [itemsOf_congr d (itemRange r) b _ t hregsT.seed hregsT.counter, houtT, List.append_assoc,
    ← itemsOf_add] at houtU
  exact ⟨((sameRegisters_iterated_advance hregsT b).trans hregsU).symm.trans hregsW,
    houtW.trans houtU.symm⟩

/-! ### Readable items (R128, R129) -/

/-- The items a RANDBYTES appends are those of some number of draws, none on an unseeded block (R126,
R130, R139). -/
theorem randBytes_items {length : Nat} {d r : Bool} {s t : State} {items : List OutRecord}
    (h : exec (.randBytes length d r) s = .next t) (hout : t.out = s.out ++ items) :
    ∃ n, items = itemsOf d (itemRange r) n s := by
  rcases execRandBytes_cases length d r s with ⟨-, e⟩ | ⟨-, n, c, e, -⟩ <;> cases e.symm.trans h
  · exact ⟨0, List.append_cancel_left (hout.symm.trans (List.append_nil s.out).symm)⟩
  · exact ⟨n, (List.append_cancel_left hout).symm⟩

/-- A draw on the readable range gives a printable character (R116 a, R129). -/
theorem outData_itemOf_readable (fmt : Bool) (s : State) :
    0x20 ≤ (outData (itemOf fmt (itemRange true) s)).toNat ∧
      (outData (itemOf fmt (itemRange true) s)).toNat ≤ 0x7E := by
  obtain ⟨hlo, hhi⟩ := outmap_mem_range (min := 32) (max := 126) (advance_seed_lt s) (by decide)
    (by decide)
  rw [itemRange_eq, itemOf, outData_outRecord, advance_seed_low, BitVec.toNat_ofInt]
  simp only [if_true]
  omega

/-- Settles O42: every item is a draw on the readable range, recorded with the FMT of the command. -/
theorem readableItemsArePrintable : Obligations.ReadableItemsArePrintable := by
  intro length d s t items h hout x hx
  obtain ⟨n, rfl⟩ := randBytes_items h hout
  obtain ⟨k, -, rfl⟩ := List.mem_map.1 hx
  obtain ⟨hlo, hhi⟩ := outData_itemOf_readable d (iterated advance k s)
  exact ⟨hlo, hhi, outFmt_outRecord d _⟩

end Sys2Proof.Machine
end

section
/-! The seven statements of 60_exceptions.md: which code a record is answered with (R135, R136, R139
to R141), that a fault changes nothing else (R142), and that nothing stops the block (R144). -/

namespace Sys2Proof.Machine

/-! ### Every command answers a next state (R144) -/

theorem exec_exists_next (i : Instr) (s : State) : ∃ t, exec i s = .next t := by
  cases i with
  | seedT => exact ⟨_, exec_seedT s⟩
  | seedI v => exact ⟨_, exec_seedI v s⟩
  | seedS len =>
    rcases lt_or_ge s.msg.length len with hlen | hlen
    · exact ⟨s, exec_seedS_of_lt hlen⟩
    · exact ⟨_, exec_seedS_of_le hlen⟩
  | seedX => exact ⟨_, rfl⟩
  | save =>
    cases hs : s.seeded with
    | false => exact ⟨_, exec_of_unseeded hs (.inl rfl)⟩
    | true => exact ⟨_, exec_save_of_seeded hs⟩
  | restore =>
    cases hs : s.seeded with
    | false => exact ⟨_, exec_of_unseeded hs (.inr (.inl rfl))⟩
    | true =>
      cases hv : s.savedValid with
      | false => exact ⟨_, exec_restore_of_not_savedValid hs hv⟩
      | true => exact ⟨_, exec_restore_of_savedValid hs hv⟩
  | randInt a b =>
    rcases execRandInt_cases a b s with ⟨-, e⟩ | ⟨-, -, e⟩ | ⟨-, -, -, e⟩ | ⟨-, -, -, e⟩ <;>
      exact ⟨_, e⟩
  | randBytes n d r =>
    rcases execRandBytes_cases n d r s with ⟨-, e⟩ | ⟨-, _, _, e, -⟩ <;> exact ⟨_, e⟩

theorem step_exists_next (s : State) : ∃ t, step s = .next t := by
  rcases step_cases s with ⟨-, e⟩ | ⟨_, _, _, -, -, e⟩ | ⟨_, _, i, -, -, e⟩
  · exact ⟨_, e⟩
  · exact ⟨_, e⟩
  · rw [e]
    exact exec_exists_next i s

/-! ### The seedings that complete (R90, R139) -/

/-- The command is a seeding that does not wait: a SEED.T, a SEED.I, or a SEED.S whose bytes are on
MSG (R90, R161). -/
def CompletesSeeding (i : Instr) (s : State) : Prop :=
  i = .seedT ∨ (∃ v, i = .seedI v) ∨ ∃ len, i = .seedS len ∧ len ≤ s.msg.length

theorem exec_of_completesSeeding {i : Instr} {s : State} (hi : CompletesSeeding i s) :
    ∃ v u, exec i s = .next (seedWith v u) ∧ u.rsp = s.rsp := by
  rcases hi with rfl | ⟨v, rfl⟩ | ⟨len, rfl, hlen⟩
  · exact ⟨_, _, exec_seedT s, sampleTime_rsp s⟩
  · exact ⟨_, _, exec_seedI v s, rfl⟩
  · exact ⟨_, _, exec_seedS_of_le hlen, rfl⟩

/-- No flag is written but by a seeding that completes, and SAVED_VALID by SAVE (R25, R26, R36). -/
theorem flags_of_not_completesSeeding {i : Instr} {s t : State} (hi : ¬ CompletesSeeding i s)
    (h : exec i s = .next t) :
    t.seeded = s.seeded ∧ (i ≠ .save → t.savedValid = s.savedValid) := by
  obtain ⟨hseeded, hsaved, -⟩ := commandsWriteOnlyWhatTheAccessTableSays i s t h
  cases i with
  | seedT => exact absurd (.inl rfl) hi
  | seedI v => exact absurd (.inr (.inl ⟨v, rfl⟩)) hi
  | seedS len =>
    have hlen : s.msg.length < len := not_le.1 fun hle => hi (.inr (.inr ⟨len, rfl, hle⟩))
    cases (exec_seedS_of_lt hlen).symm.trans h
    exact ⟨rfl, fun _ => rfl⟩
  | save => exact ⟨hseeded (by simp), fun hne => absurd rfl hne⟩
  | seedX | restore | randInt a b | randBytes n d r =>
    exact ⟨hseeded (by simp), fun _ => (hsaved (by simp)).1⟩

/-- R139: what SEEDED is after a command. -/
theorem exec_seeded_iff {i : Instr} {s t : State} (h : exec i s = .next t) :
    t.seeded = true ↔ s.seeded = true ∨ CompletesSeeding i s := by
  by_cases hi : CompletesSeeding i s
  · obtain ⟨v, u, e, -⟩ := exec_of_completesSeeding hi
    cases e.symm.trans h
    simp [hi]
  · rw [(flags_of_not_completesSeeding hi h).1]
    simp [hi]

/-- Settles O10: a step and a command always answer; a seeding that completes answers OK 0; and a
command that does not answer its record is a waiting SEED.S. -/
theorem noCommandStopsTheBlock : Obligations.NoCommandStopsTheBlock := by
  have hseeding {i : Instr} {s : State} (hi : CompletesSeeding i s) :
      ∃ t, exec i s = .next t ∧ t.seeded = true ∧ t.rsp = s.rsp ++ [0x000000000#36] := by
    obtain ⟨v, u, e, hrsp⟩ := exec_of_completesSeeding hi
    exact ⟨_, e, rfl, by rw [seedWith_rsp, hrsp, rspRecord_ok_zero]⟩
  refine ⟨step_exists_next, fun s => hseeding (.inl rfl),
    fun v s => hseeding (.inr (.inl ⟨v, rfl⟩)),
    fun len s hlen => hseeding (.inr (.inr ⟨len, rfl, hlen⟩)), fun i s => ?completes⟩
  case completes =>
    obtain ⟨t, h⟩ := exec_exists_next i s
    rcases exec_waits_or_answers h with ⟨⟨len, hi, hlen⟩, heq⟩ | ⟨-, hanswered⟩
    · exact ⟨t, h, .inr ⟨len, hi, hlen, heq⟩⟩
    · exact ⟨t, h, .inl hanswered.rsp⟩

/-! ### The code a record is answered with (R141) -/

section reported
variable {s t u : State} {r : CmdRecord} {i : Instr}

theorem reported_of_respond {c : Code} {v : Word} (hrsp : u.rsp = s.rsp)
    (hcode : codeBits c = reportedCode s r) :
    ∃ value : Word,
      (respond c v u).rsp = s.rsp ++ [(value ++ reportedCode s r : BitVec (32 + 4))] :=
  ⟨v, by rw [respond_rsp, hrsp, rspRecord, hcode]⟩

/-- NotSeeded comes before every other fault of the commands that need a seeding (R139, R141). -/
theorem reportedCode_of_unseeded (hd : decode r = .ok i) (hs : s.seeded = false)
    (hi : i = .save ∨ i = .restore ∨ (∃ a b, i = .randInt a b) ∨ ∃ n d r, i = .randBytes n d r) :
    reportedCode s r = 5 := by
  rcases hi with rfl | rfl | ⟨a, b, rfl⟩ | ⟨n, d, o, rfl⟩ <;> simp [reportedCode, hd, hs]

/-- A command that does not wait is answered with the reported code: one case per outcome, in the
order of `exec_cases`. -/
theorem exec_reports (hd : decode r = .ok i)
    (hwait : ¬ ∃ len, i = .seedS len ∧ s.msg.length < len) (h : exec i s = .next t) :
    ∃ value : Word, t.rsp = s.rsp ++ [(value ++ reportedCode s r : BitVec (32 + 4))] := by
  rcases exec_cases i s t h with ⟨rfl, rfl⟩ | ⟨v, rfl, rfl⟩ | ⟨len, rfl, hlen, -⟩ |
    ⟨len, rfl, -, rfl⟩ | ⟨c, -, rfl, hfault⟩ | ⟨rfl, hs, rfl⟩ | ⟨rfl, hs, hv, rfl⟩ |
    ⟨a, b, rfl, hs, hr, hc, rfl⟩ | ⟨n, d, o, k, c, rfl, hs, hk, hend, rfl⟩
  -- SEED.T, SEED.I, SEED.S while it waits, SEED.S with its bytes.
  · exact reported_of_respond (sampleTime_rsp s) (by simp [reportedCode, hd, codeBits])
  · exact reported_of_respond rfl (by simp [reportedCode, hd, codeBits])
  · exact absurd ⟨len, rfl, hlen⟩ hwait
  · exact reported_of_respond rfl (by simp [reportedCode, hd, codeBits])
  -- A fault.
  · refine reported_of_respond rfl ?_
    rcases hfault with ⟨rfl, rfl⟩ | ⟨hs, rfl, hi⟩ | ⟨rfl, hs, hv, rfl⟩ |
      ⟨a, b, rfl, hs, ⟨hr, rfl⟩ | ⟨hr, hc, rfl⟩⟩
    · simp [reportedCode, hd, codeBits]
    · exact (reportedCode_of_unseeded hd hs hi).symm
    · simp [reportedCode, hd, hs, hv, codeBits]
    · simp [reportedCode, hd, hs, hr, codeBits]
    · simp [reportedCode, hd, hs, hr.not_gt, hc, codeBits]
  -- SAVE and RESTORE.
  · exact reported_of_respond rfl (by simp [reportedCode, hd, hs, codeBits])
  · exact reported_of_respond rfl (by simp [reportedCode, hd, hs, hv, codeBits])
  -- RANDINT with a draw left, and RANDBYTES, which stops exactly where COUNTER admits no draw.
  · exact reported_of_respond rfl (by simp [reportedCode, hd, hs, hr.not_gt, hc, codeBits])
  · refine reported_of_respond (iterated_advance_rsp k s) ?_
    rcases hend with ⟨rfl, rfl⟩ | ⟨hlt, htop, rfl⟩
    · simp [reportedCode, hd, hs, hk.not_gt, codeBits]
    · have hover : counterMax < s.counter.toNat + n := by omega
      simp [reportedCode, hd, hs, hover, codeBits]

end reported

/-- Settles O12: the code of an ILLEGAL record, and of a command. -/
theorem theFirstFaultInOrderIsReported : Obligations.TheFirstFaultInOrderIsReported := by
  intro s t r rest hc hwait h
  rw [waitsForBytes_iff hc] at hwait
  cases hd : decode r with
  | error e =>
    cases (step_of_decode_error hc hd).symm.trans h
    exact reported_of_respond rfl (by simp [reportedCode, hd, codeBits])
  | ok i =>
    rw [step_of_decode_ok hc hd] at h
    exact exec_reports hd (by simpa [hd] using hwait) h

/-! ### What a response tells of the step (R142) -/

section response
variable {s t : State} {i : Instr} {x : RspRecord}

/-- The response a step appended is the one it responded with. -/
theorem eq_rspRecord {c : Code} {v : Word} {u : State} (hrsp : u.rsp = s.rsp)
    (hx : (respond c v u).rsp = s.rsp ++ [x]) : x = rspRecord c v := by
  rw [respond_rsp, hrsp] at hx
  exact (List.singleton_inj.1 (List.append_cancel_left hx)).symm

/-- A RANDBYTES stopped before its first item is a fault like any other (R130). -/
theorem respond_overflow_zero (d r : Bool) (s : State) :
    respond .counterOverflow (BitVec.ofNat 32 0)
      { iterated advance 0 s with out := s.out ++ itemsOf d (itemRange r) 0 s } =
        raise .counterOverflow s := by
  rw [List.length_eq_zero_iff.1 (itemsOf_length d (itemRange r) 0 s), List.append_nil]
  rfl

/-- What a command did, read from its response: it completed, it took a fault, which is InvalidSeed
for SEED.X only, or it is a RANDBYTES stopped after an item (R135, R142). -/
theorem exec_response_cases (h : exec i s = .next t) (hx : t.rsp = s.rsp ++ [x]) :
    (∃ v, x = rspRecord .ok v) ∨
    (∃ c, x = rspRecord c 0 ∧ t = raise c s ∧ (c = .invalidSeed → i = .seedX)) ∨
    ∃ length d r n, i = .randBytes length d r ∧ 0 < n ∧ n < length ∧
      s.counter.toNat + n = counterMax ∧ x = rspRecord .counterOverflow (BitVec.ofNat 32 n) ∧
      t = respond .counterOverflow (BitVec.ofNat 32 n)
        { iterated advance n s with out := s.out ++ itemsOf d (itemRange r) n s } := by
  rcases exec_cases i s t h with ⟨-, rfl⟩ | ⟨v, -, rfl⟩ | ⟨len, -, -, rfl⟩ |
    ⟨len, -, -, rfl⟩ | ⟨c, -, rfl, hfault⟩ | ⟨-, -, rfl⟩ | ⟨-, -, -, rfl⟩ |
    ⟨a, b, -, -, -, -, rfl⟩ | ⟨n, d, r, k, c, rfl, -, -, hend, rfl⟩
  -- SEED.T, SEED.I, SEED.S while it waits, SEED.S with its bytes.
  · exact .inl ⟨_, eq_rspRecord (sampleTime_rsp s) hx⟩
  · exact .inl ⟨_, eq_rspRecord rfl hx⟩
  · simp at hx
  · exact .inl ⟨_, eq_rspRecord rfl hx⟩
  -- A fault: of the causes only that of SEED.X is InvalidSeed.
  · refine .inr (.inl ⟨c, eq_rspRecord rfl hx, rfl, ?_⟩)
    rintro rfl
    simpa using hfault
  -- SAVE, RESTORE, and RANDINT with a draw left.
  · exact .inl ⟨_, eq_rspRecord rfl hx⟩
  · exact .inl ⟨_, eq_rspRecord rfl hx⟩
  · exact .inl ⟨_, eq_rspRecord rfl hx⟩
  -- RANDBYTES with all its items, stopped before the first, and stopped later.
  · have hrec := eq_rspRecord (iterated_advance_rsp k s) hx
    rcases hend with ⟨-, rfl⟩ | ⟨hlt, htop, rfl⟩
    · exact .inl ⟨_, hrec⟩
    · rcases Nat.eq_zero_or_pos k with rfl | hpos
      · exact .inr (.inl ⟨_, hrec, respond_overflow_zero d r s, by simp⟩)
      · exact .inr (.inr ⟨n, d, r, k, rfl, hpos, hlt, htop, hrec, rfl⟩)

end response

/-- The next state of a fault, with its response and CMD written out (R142). -/
theorem raise_eq_update {s : State} {r : CmdRecord} {rest : List CmdRecord} (hc : s.cmd = r :: rest)
    (c : Code) : raise c s = { s with rsp := s.rsp ++ [rspRecord c 0], cmd := rest } := by
  rw [raise, respond, hc, List.tail_cons]

/-- Settles O13: an ILLEGAL record and every fault but one are `raise`; the one is a RANDBYTES
stopped after an item. -/
theorem faultsChangeNothingElse : Obligations.FaultsChangeNothingElse := by
  intro s t r rest x hc hstep hx hcode
  cases hd : decode r with
  | error e =>
    cases (step_of_decode_error hc hd).symm.trans hstep
    obtain rfl := eq_rspRecord rfl hx
    exact .inl ⟨rspValue_rspRecord _ 0, raise_eq_update hc _⟩
  | ok i =>
    rw [step_of_decode_ok hc hd] at hstep
    rcases exec_response_cases hstep hx with ⟨v, rfl⟩ | ⟨c, rfl, rfl, -⟩ |
      ⟨length, d, o, n, rfl, hpos, hlt, htop, rfl, rfl⟩
    · exact absurd (rspCode_rspRecord .ok v) hcode
    · exact .inl ⟨rspValue_rspRecord c 0, raise_eq_update hc c⟩
    · refine .inr ⟨length, d, o, n, itemsOf d (itemRange o) n s, rfl, hpos, hlt, htop,
        itemsOf_length .., rfl, ?_⟩
      rw [respond_iterated_advance, hc, List.tail_cons]

/-! ### InvalidSeed (R135) -/

/-- A record of SEED.X decodes with any OPD (R57, R60). -/
theorem decode_seedX (opd : BitVec 64) :
    decode (record opd (controlWord 1 3 false false)) = .ok .seedX :=
  (decode_eq_ok_iff _ _).2 (by simp)

/-- Settles O22: SEED.X is `raise`; the responses of the others are read off `exec_response_cases`,
and that of a seeding is OK 0. -/
theorem onlyOtherSeedKindsAreInvalid : Obligations.OnlyOtherSeedKindsAreInvalid := by
  refine ⟨fun s => rfl, fun opd => ?decodes, fun i s t x hi h hx => ?others,
    fun i s t x hi h hx => ?seedings⟩
  case decodes =>
    have hcw : controlWord 1 3 false false = 0x00000031#32 := by decide
    rw [← decode_seedX opd, hcw, record]
  case others =>
    change rspCode x ≠ codeBits .invalidSeed
    rcases exec_response_cases h hx with ⟨v, rfl⟩ | ⟨c, rfl, -, honly⟩ |
      ⟨_, _, _, n, -, -, -, -, rfl, -⟩ <;> rw [rspCode_rspRecord]
    · decide
    · exact fun e => hi (honly (codeBits_injective _ _ e))
    · decide
  case seedings =>
    have hcompletes : CompletesSeeding i s := by
      rcases hi with hi | hi | ⟨len, rfl⟩
      · exact .inl hi
      · exact .inr (.inl hi)
      · refine .inr (.inr ⟨len, rfl, not_lt.1 fun hlt => ?_⟩)
        cases (exec_seedS_of_lt hlt).symm.trans h
        simp at hx
    obtain ⟨v, u, e, hrsp⟩ := exec_of_completesSeeding hcompletes
    cases e.symm.trans h
    exact (eq_rspRecord hrsp hx).trans rspRecord_ok_zero

/-! ### InvalidState (R136) -/

/-- Settles O26: the outcome of a RESTORE without a snapshot; a seeding clears SAVED_VALID, and no
command but SAVE sets it. -/
theorem restoreWithoutASnapshotIsInvalid : Obligations.RestoreWithoutASnapshotIsInvalid := by
  have hseeding {i : Instr} {s t : State} (hi : CompletesSeeding i s) (h : exec i s = .next t) :
      t.savedValid = false := by
    obtain ⟨v, u, e, -⟩ := exec_of_completesSeeding hi
    cases e.symm.trans h
    rfl
  refine ⟨fun s => exec_restore_of_not_savedValid, rfl, fun i s t => hseeding,
    fun i s t h hbefore hafter => ?onlySave⟩
  case onlySave =>
    by_contra hne
    have hi : ¬ CompletesSeeding i s := fun hi => by simp [hseeding hi h] at hafter
    rw [(flags_of_not_completesSeeding hi h).2 hne, hbefore] at hafter
    cases hafter

/-! ### NotSeeded (R139) -/

/-- Settles O33: the commands that need a seeding, the reset, and what SEEDED is after a command. -/
theorem unseededCommandsFault : Obligations.UnseededCommandsFault := by
  refine ⟨fun s hs => ⟨?save, ?restore, fun a b => ?randInt, fun n d r => ?randBytes⟩, rfl,
    fun i s t => exec_seeded_iff⟩
  case save => exact exec_of_unseeded hs (.inl rfl)
  case restore => exact exec_of_unseeded hs (.inr (.inl rfl))
  case randInt => exact exec_of_unseeded hs (.inr (.inr (.inl ⟨a, b, rfl⟩)))
  case randBytes => exact exec_of_unseeded hs (.inr (.inr (.inr ⟨n, d, r, rfl⟩)))

/-! ### CounterOverflow (R140) -/

/-- Settles O32: both draws at the top of COUNTER, and a RANDBYTES that reaches the top. -/
theorem noDrawPassesTheTopOfTheCounter : Obligations.NoDrawPassesTheTopOfTheCounter := by
  refine ⟨fun s hs htop => ⟨fun a b hr => ?randInt, fun n d r hn => ?atTop⟩,
    fun s n d r hs hover => ?reachesTop⟩
  case randInt =>
    exact exec_randInt_of_counterAtTop hs hr.not_gt ((counterAtTop_iff s).2 htop)
  case atTop =>
    rw [exec_randBytes_of_lt hs d r (i := 0) htop hn, respond_overflow_zero]
    rfl
  case reachesTop =>
    obtain ⟨i, hi⟩ := Nat.exists_eq_add_of_le (counter_le_max s)
    have hlt : i < n := by
      rw [counterMax_eq] at hi
      omega
    refine ⟨_, rspRecord .counterOverflow (BitVec.ofNat 32 i),
      exec_randBytes_of_lt hs d r hi.symm hlt, ?rsp, ?code, ?counter⟩
    case rsp => rw [respond_rsp, iterated_advance_rsp]
    case code => exact rspCode_rspRecord .counterOverflow _
    case counter => exact (iterated_advance_counter_toNat hi.ge).trans hi.symm

end Sys2Proof.Machine
end

section
/-! The three statements of 70_reset_and_hazards.md: a draw against its range (R160), the wait of a
SEED.S (R161), and a seeding between SAVE and RESTORE (R164). -/

namespace Sys2Proof.Machine

/-! ### The draw and its range (R160) -/

/-- On one block every RANDINT with a range that is not empty takes the same path: the ranges share
the code and the state responded from, and only VALUE is the range's own (R106, R107). -/
theorem exists_randInt_state_of_le (s : State) :
    ∃ c u, ∀ a b : Int, a ≤ b → ∃ v, exec (.randInt a b) s = .next (respond c v u) := by
  cases hs : s.seeded with
  | false =>
    exact ⟨.notSeeded, s, fun a b _ =>
      ⟨0, exec_of_unseeded hs (.inr (.inr (.inl ⟨a, b, rfl⟩)))⟩⟩
  | true =>
    cases hc : counterAtTop s with
    | true =>
      exact ⟨.counterOverflow, s, fun _ _ hr => ⟨0, exec_randInt_of_counterAtTop hs hr.not_gt hc⟩⟩
    | false => exact ⟨.ok, advance s, fun _ _ hr => ⟨_, exec_randInt_of_draw hs hr.not_gt hc⟩⟩

/-- Settles O35: both commands respond from one state, and a response's VALUE reaches RSP alone. -/
theorem theRangeShapesOnlyTheAnswer : Obligations.TheRangeShapesOnlyTheAnswer := by
  intro a b c d s t u hab hcd ht hu
  obtain ⟨code, w, hw⟩ := exists_randInt_state_of_le s
  obtain ⟨v₁, e₁⟩ := hw a b hab
  obtain ⟨v₂, e₂⟩ := hw c d hcd
  cases e₁.symm.trans ht
  cases e₂.symm.trans hu
  rfl

/-! ### The wait of a SEED.S (R161) -/

/-- Settles O21: a SEED.S short of its bytes waits; with the bytes sent behind those already on MSG
it pops the first LEN of them all, under the common effect. -/
theorem stringSeedingWaitsForItsBytes : Obligations.StringSeedingWaitsForItsBytes := by
  refine ⟨fun _ _ => exec_seedS_of_lt, fun len s bs hlen => ?completes⟩
  case completes =>
    have hsent : len ≤ (s.sendMsg bs).msg.length := by
      rwa [sendMsg_msg, List.length_append]
    refine ⟨_, exec_seedS_of_le hsent, ?seeded, rfl⟩
    case seeded =>
      rw [← stringSeed_toNat]
      exact seededWith_seedWith _ rfl rfl rfl

/-! ### SAVE, a seeding, RESTORE (R164) -/

/-- Settles O29: the seeding sets SEEDED and clears SAVED_VALID, whatever SAVE left there, so RESTORE
finds no snapshot. -/
theorem seedingDiscardsTheSnapshot : Obligations.SeedingDiscardsTheSnapshot := by
  intro i s t u _ hi hseed
  obtain ⟨hinvalid, -, hclears, -⟩ := restoreWithoutASnapshotIsInvalid
  have hseeded : u.seeded = true := (exec_seeded_iff hseed).2 (.inr hi)
  exact hinvalid u hseeded (hclears i t u hi hseed)

end Sys2Proof.Machine
end
